-- ==== Sys2Proof/Word.lean ====
section
/-! DEFINITION. The widths of the block's values and the eight logical registers in field order (R7, R8, R20). -/

namespace Sys2Proof

/-- A byte of FRAME (R50). -/
abbrev Byte := BitVec 8

/-- A payload nibble (R55). -/
abbrev Nibble := BitVec 4

/-- A word of INDEX (R50, R70). -/
abbrev IndexWord := BitVec 16

/-- The eight logical registers, in the fixed field order of R20. -/
inductive Field where
  | tone0 | tone1 | tone2 | noise | volume0 | volume1 | volume2 | volume3
  deriving DecidableEq, Repr

/-- The field index `f` of R20, which is also the sink's target number (R53, D5). -/
def Field.index : Field → Fin 8
  | .tone0 => 0
  | .tone1 => 1
  | .tone2 => 2
  | .noise => 3
  | .volume0 => 4
  | .volume1 => 5
  | .volume2 => 6
  | .volume3 => 7

/-- `W(f)` of R20. -/
@[reducible] def Field.width : Field → Nat
  | .tone0 => 10
  | .tone1 => 10
  | .tone2 => 10
  | .noise => 4
  | .volume0 => 4
  | .volume1 => 4
  | .volume2 => 4
  | .volume3 => 4

/-- The eight fields in field order (R20, R144). -/
def Field.all : List Field :=
  [.tone0, .tone1, .tone2, .noise, .volume0, .volume1, .volume2, .volume3]

end Sys2Proof
end

