-- ==== Sys2Proof/Config.lean ====
section
/-! DEFINITION. The parameters of R7 that are configuration common to the synthesizer and the decoder (R37, R235), at their default values. -/

namespace Sys2Proof.Config

/-- `HDR_BIT(f)`, the header bit of field `f` (R7, R76). DESIGN CHOICE of the spec (D3), log entry 13: unsafe for artifacts of
another encoder. -/
def hdrBit (f : Field) : Fin 8 := f.index

/-- `PAD_NIBBLE`, the unused high nibble of the last byte of an odd payload (R7, R81). DESIGN CHOICE of the spec (D4), log entry 14:
safe for the decoder, which never reads it. -/
def padNibble : Nibble := 0

/-- The byte orders an index word may be stored in (R57). -/
inductive ByteOrder where
  | little
  | big
  deriving DecidableEq, Repr

/-- `INDEX_BYTE_ORDER` (R7, R57, U16). DESIGN CHOICE of the spec (D8), log entry 16: safe, no rule of the decoder depends on it. -/
def indexByteOrder : ByteOrder := .little

/-- `FRAME_TABLE_MAX`, the most bytes in `frame_table` (R7, R174, C4). -/
def frameTableMax : Nat := 4096

/-- `STREAM_LEN_MAX`, the most words in `index_table` (R7, R184, C5). DESIGN CHOICE of the spec (D11), log entry 17: 4096 by default,
32768 is the other admitted value; what depends on it takes it as an argument. -/
def streamLenMax : Nat := 4096

end Sys2Proof.Config
end

