-- ==== Sys2Proof/Syntax.lean ====
section
/-! DEFINITION. The instructions: one constructor for each row of spec/opcode_table.json. -/

namespace Sys2Proof

/-- The operations a word of INDEX (formats IW, BR) or a set bit of a frame header (format FH) selects (R70, R89). -/
inductive Instr where
  /-- LIT, literal index word: delay in ticks minus 1 and frame offset (R71). -/
  | lit (dly : BitVec 3) (off : BitVec 12)
  /-- BREF, back-reference: run length minus 2 and INDEX position of the run's first word (R72). -/
  | bref (len : BitVec 3) (start : BitVec 12)
  /-- WR.TONE0, header bit 0 (R147). -/
  | wrTone0
  /-- WR.TONE1, header bit 1 (R147). -/
  | wrTone1
  /-- WR.TONE2, header bit 2 (R147). -/
  | wrTone2
  /-- WR.NOISE, header bit 3 (R148). -/
  | wrNoise
  /-- WR.VOL0, header bit 4 (R149). -/
  | wrVol0
  /-- WR.VOL1, header bit 5 (R149). -/
  | wrVol1
  /-- WR.VOL2, header bit 6 (R149). -/
  | wrVol2
  /-- WR.VOL3, header bit 7 (R149). -/
  | wrVol3
  /-- ZERO, the header with no bit set (R82, R151). -/
  | zero
  /-- DLY, the literal with frame offset 0 (R83, R91). -/
  | dly (dly : BitVec 3)
  deriving DecidableEq, Repr

/-- What an instruction is encoded in: a word of INDEX or a header byte of FRAME (R70). -/
inductive Code where
  | word (w : IndexWord)
  | header (h : Byte)
  deriving DecidableEq, Repr

/-- The field-write operation of a field (R89). -/
def Instr.ofField : Field → Instr
  | .tone0 => .wrTone0
  | .tone1 => .wrTone1
  | .tone2 => .wrTone2
  | .noise => .wrNoise
  | .volume0 => .wrVol0
  | .volume1 => .wrVol1
  | .volume2 => .wrVol2
  | .volume3 => .wrVol3

/-- The field an instruction writes, if it is a field-write operation (R89). -/
def Instr.field? : Instr → Option Field
  | .lit _ _ => none
  | .bref _ _ => none
  | .wrTone0 => some .tone0
  | .wrTone1 => some .tone1
  | .wrTone2 => some .tone2
  | .wrNoise => some .noise
  | .wrVol0 => some .volume0
  | .wrVol1 => some .volume1
  | .wrVol2 => some .volume2
  | .wrVol3 => some .volume3
  | .zero => none
  | .dly _ => none

end Sys2Proof
end

