-- ==== Sys2Proof/WellFormed.lean ====
section
/-! DEFINITION. Which instructions, and which lists of header operations, are in the form the decoder yields. -/

namespace Sys2Proof

/-- Every operand value of every instruction is encodable (R71, R72); the one check is that the words with frame offset 0 are
spelled DLY, not LIT (R83, R91), so that every word has one spelling. DESIGN CHOICE, log entry 7: safe, both spellings mean the same. -/
def Instr.wellFormed : Instr → Bool
  | .lit _ off => off ≠ 0
  | .bref _ _ => true
  | .wrTone0 => true
  | .wrTone1 => true
  | .wrTone2 => true
  | .wrNoise => true
  | .wrVol0 => true
  | .wrVol1 => true
  | .wrVol2 => true
  | .wrVol3 => true
  | .zero => true
  | .dly _ => true

/-- The operations of one frame header: ZERO alone, or field-write operations each at most once and in field order (R89, R144). -/
def headerOpsWellFormed (ops : List Instr) : Bool :=
  ops = [.zero] ||
    (!ops.isEmpty && ops = (Field.all.map Instr.ofField).filter (fun i => ops.contains i))

end Sys2Proof
end

