-- ==== Sys2Proof/Decode.lean ====
section
/-! DEFINITION. The decoder of index words and frame headers, then the encoder (R70 to R79, R87 to R92, R120). -/

namespace Sys2Proof

/-- `flag = w[15]` (R71, R72, R120). -/
def flagOf (w : IndexWord) : Bool := w.getLsbD 15

/-- `hi3 = w[14:12]`: `dly` of a literal, `len` of a back-reference (R120). -/
def hi3Of (w : IndexWord) : BitVec 3 := w.extractLsb' 12 3

/-- `lo12 = w[11:0]`: `off` of a literal, `start` of a back-reference (R120). -/
def lo12Of (w : IndexWord) : BitVec 12 := w.extractLsb' 0 12

/-- FIELDS(w) (R120): `(flag, hi3, lo12)`. -/
def fieldsOf (w : IndexWord) : Bool × BitVec 3 × BitVec 12 := (flagOf w, hi3Of w, lo12Of w)

/-- A word of INDEX: bit 15 alone decides between LIT and BREF (R73, R89); a literal with frame offset 0 is spelled DLY (R83, R91). -/
def decodeWord (w : IndexWord) : Instr :=
  if flagOf w then .bref (hi3Of w) (lo12Of w)
  else if lo12Of w = 0 then .dly (hi3Of w)
  else .lit (hi3Of w) (lo12Of w)

/-- Header bit `HDR_BIT(f)` says that field `f` changed (R76). -/
def headerHas (h : Byte) (f : Field) : Bool := h.getLsbD (Config.hdrBit f)

/-- A header byte: one operation for each set bit, in field order, which is ascending bit order; `0x00` selects none, the zero frame
(R89, R143, R144, R151). -/
def decodeHeader (h : Byte) : List Instr :=
  if h = 0 then [.zero] else (Field.all.filter (headerHas h)).map Instr.ofField

/-- What a word of INDEX or a header byte means: the operations it selects, in the order they run (R89). -/
def decode : Code → List Instr
  | .word w => [decodeWord w]
  | .header h => decodeHeader h

/-- Why a stored index word cannot be read: fewer than two bytes are left. No bit pattern of a whole word or header is refused (R88). -/
inductive DecodeError where
  | truncatedWord
  deriving DecidableEq, Repr

/-- The word two stored bytes make, under INDEX_BYTE_ORDER (R57); `b0` has the lower address. -/
def wordOfBytes (order : Config.ByteOrder) (b0 b1 : Byte) : IndexWord :=
  match order with
  | .little => b1 ++ b0
  | .big => b0 ++ b1

/-- An index word stored as bytes, decoded, with the bytes after it (R57). -/
def decodeBytes : List Byte → Except DecodeError (Instr × List Byte)
  | b0 :: b1 :: rest => .ok (decodeWord (wordOfBytes Config.indexByteOrder b0 b1), rest)
  | [_] => .error .truncatedWord
  | [] => .error .truncatedWord

/-- The instruction the decoder reads from the bits of a row of spec/opcode_table.json: rows of 16 bits are words of INDEX, laid out in
their stored bytes; rows of 8 bits are header bytes, whose first operation is answered (log entry 8). -/
def decodeTableWord (nbits w : Nat) : Option Instr :=
  match nbits with
  | 16 =>
    let v := BitVec.ofNat 16 w
    let lo : Byte := v.extractLsb' 0 8
    let hi : Byte := v.extractLsb' 8 8
    let stored := match Config.indexByteOrder with
      | .little => [lo, hi]
      | .big => [hi, lo]
    match decodeBytes stored with
    | .ok (i, _) => some i
    | .error _ => none
  | 8 => (decodeHeader (BitVec.ofNat 8 w)).head?
  | _ => none

/-- `(delay-1) << 12 | off` (R71). -/
def literalWord (dly : BitVec 3) (off : BitVec 12) : IndexWord := 0#1 ++ dly ++ off

/-- `0x8000 | (length-2) << 12 | start` (R72). -/
def backrefWord (len : BitVec 3) (start : BitVec 12) : IndexWord := 1#1 ++ len ++ start

/-- The header with exactly the bits of the fields in `fs` set (R76, R102). -/
def headerOf (fs : List Field) : Byte :=
  fs.foldl (fun h f => h ||| BitVec.twoPow 8 (Config.hdrBit f).val) 0

/-- The word or header byte of an instruction, from the encodings of R71, R72, R76, R82 and R83. -/
def encode : Instr → Code
  | .lit dly off => .word (literalWord dly off)
  | .bref len start => .word (backrefWord len start)
  | .wrTone0 => .header (headerOf [.tone0])
  | .wrTone1 => .header (headerOf [.tone1])
  | .wrTone2 => .header (headerOf [.tone2])
  | .wrNoise => .header (headerOf [.noise])
  | .wrVol0 => .header (headerOf [.volume0])
  | .wrVol1 => .header (headerOf [.volume1])
  | .wrVol2 => .header (headerOf [.volume2])
  | .wrVol3 => .header (headerOf [.volume3])
  | .zero => .header 0
  | .dly dly => .word (literalWord dly 0)

/-- The header byte of a list of header operations (R89). -/
def encodeHeader (ops : List Instr) : Byte := headerOf (ops.filterMap Instr.field?)

/-- The two bytes of an index word as stored, lower address first (R57). -/
def wordBytes (order : Config.ByteOrder) (w : IndexWord) : List Byte :=
  match order with
  | .little => [w.extractLsb' 0 8, w.extractLsb' 8 8]
  | .big => [w.extractLsb' 8 8, w.extractLsb' 0 8]

end Sys2Proof
end

