-- ==== Sys2Proof/Machine/State.lean ====
section
/-! DEFINITION. The machine's state, as plain data, its faults, and the state after reset (R12, R20 to R37, R201). -/

namespace Sys2Proof.Machine

/-- A table: cells of address and value, addresses strictly rising. An unlisted address holds no value (log entry 10). FRAME is a
`Memory 8`, a list of `Host.Cell`; INDEX is word-addressed (R52, R57), a `Memory 16`. -/
abbrev Memory (w : Nat) := List (Nat × BitVec w)

/-- A register state: the eight logical registers (R20). R20's widths make 50 bits; R31 says that `prev` has 46 bits in all, which no
conflict of the spec settles. The model holds R20's 50 bits. DESIGN CHOICE, log entry 31. -/
structure RegState where
  tone0 : BitVec 10
  tone1 : BitVec 10
  tone2 : BitVec 10
  noise : BitVec 4
  volume0 : BitVec 4
  volume1 : BitVec 4
  volume2 : BitVec 4
  volume3 : BitVec 4
  deriving DecidableEq, Repr

/-- The zero state (R22). -/
def RegState.zero : RegState := ⟨0, 0, 0, 0, 0, 0, 0, 0⟩

/-- A register-write event: the target and the whole new value, of the target's width (R53, D5, D21; log entry 19). -/
structure SinkEvent where
  target : Field
  value : BitVec target.width
  deriving DecidableEq, Repr

/-- The nibble-parity flag: which half of the current payload byte is next (R28). -/
inductive Parity where
  | low
  | high
  deriving DecidableEq, Repr

/-- The artifact: two flat tables and four integer constants (R30, R86). Read only for the whole run (R54). -/
structure Artifact where
  frameTable : Memory 8
  indexTable : Memory 16
  loopOuter : BitVec 16
  loopInner : BitVec 16
  loopSegmentEnd : BitVec 16
  streamLength : BitVec 16
  deriving DecidableEq, Repr

/-- The artifact of a machine into which none has been loaded: empty tables, constants 0. DESIGN CHOICE, log entry 3. -/
def Artifact.empty : Artifact := ⟨[], [], 0, 0, 0, 0⟩

/-- What the host does next (R204, R100, R220, R221; log entry 2). -/
inductive HostInput where
  /-- The tick signal (R204). -/
  | tick
  /-- The synthesizer is handed a register state (R100, D22). -/
  | synth (cur : RegState)
  /-- The decoder's reset is asserted and released (R220, D14). -/
  | reset
  /-- The synthesizer's own reset (R221). -/
  | synthReset
  deriving DecidableEq, Repr

/-- The machine's state. -/
structure State where
  /-- Position in `index_table` of the next compressed word (R24). -/
  outer : BitVec 16
  /-- Position in `index_table` of the next word to play (R25). -/
  inner : BitVec 16
  /-- One past the last word of the segment being walked (R26). -/
  segmentEnd : BitVec 16
  /-- The residual-delay counter (R27). -/
  delay : BitVec 4
  /-- The nibble-parity flag (R28). -/
  parity : Parity
  /-- The frame byte cursor (R29), transient. -/
  bc : BitVec 13
  /-- FETCH.INNER's output to UNPACK (R124), transient: the model's own field, log entry 4. -/
  offset : BitVec 12
  /-- The loaded artifact (R30, R86). -/
  artifact : Artifact
  /-- The synthesizer's previous state (R31). -/
  prev : RegState
  /-- The frame the last SYNTH returned; its length is `len` (R100, D22). -/
  frameOut : List Byte
  /-- The sink's registers as the observation keeps them (R32). -/
  shadow : RegState
  /-- The register-write events of the latest tick, in order (R10, R11, R53; log entry 5). -/
  events : List SinkEvent
  /-- What the host does next, oldest first; an empty list is a host that goes on delivering ticks: the model's own field, log entry 2. -/
  inputs : List HostInput
  deriving DecidableEq, Repr

/-- The cursors whose sum can leave its width (R129, R201; `bc` by D7, log entry 12). -/
inductive Cursor where
  | outer | inner | segmentEnd | bc
  deriving DecidableEq, Repr

/-- The model-level faults of R201: places where the source calls the behaviour undefined and the hardware goes on unchecked. Each is
safe (the model stops where the hardware may go on), log entry 18. -/
inductive Fault where
  /-- Code 1, raised by FETCH.OUTER and FETCH.INNER: INDEX was read at a position outside the stream (U2). Safe. -/
  | indexOutOfRange (p : BitVec 16)
  /-- Code 2, raised by UNPACK and NEXTNIBBLE: FRAME was read at an address outside the table (U2). Safe. -/
  | frameOutOfRange (a : BitVec 13)
  /-- Code 3, raised by FETCH.INNER: the word read at `inner` has bit 15 set (U5). Safe. -/
  | backrefAtInner (inner : BitVec 16) (word : IndexWord)
  /-- Code 4, raised by BREF: the run does not end at or before the back-reference's own position (U6). Safe. -/
  | backrefNotBefore (position : BitVec 16) (word : IndexWord)
  /-- Code 5, raised by FETCH.OUTER, FETCH.INNER and BREF, and for `bc` by UNPACK, NEXTNIBBLE and ALIGN: a cursor sum leaves its width (D7). Safe. -/
  | cursorOverflow (cursor : Cursor)
  deriving DecidableEq, Repr

/-- Why the model has no meaning for an instruction. -/
inductive Refusal where
  /-- Raised by no arm of `exec` once every instruction has its meaning. Safe: the model stops. -/
  | notModelled (mnemonic : String)
  deriving DecidableEq, Repr

/-- What a step, or a part of one, comes to. -/
abbrev Result := Host.Outcome State Fault Refusal

/-- The machine right after reset, nothing loaded: R35, R221. The spec gives `bc` and the artifact no reset value; those, `offset`, `frameOut`
and `inputs` are DESIGN CHOICEs, log entries 2, 3 and 4. -/
def State.reset : State where
  outer := 0
  inner := 0
  segmentEnd := 0
  delay := 0
  parity := .low
  bc := 0
  offset := 0
  artifact := .empty
  prev := .zero
  frameOut := []
  shadow := .zero
  events := []
  inputs := []

end Sys2Proof.Machine
end

