-- ==== Sys2Proof/Machine/Ops.lean ====
section
/-! DEFINITION. The named operations over the tables, the cursors, the register states and the sink (R21, R24 to R32, R50 to R54, R127, R153, R201,
R220, R221). The block takes no exception (R200), so there is no exception entry and no return from one. -/

namespace Sys2Proof.Machine

/-! ## Outcomes -/

/-- Go on with `k` after `o` if `o` is a next state; a fault or a refusal ends the step (R201). -/
def andThen (o : Result) (k : State → Result) : Result :=
  match o with
  | .next s => k s
  | .fault f => .fault f
  | .refused r => .refused r

/-- An operation's answer as an outcome. -/
def settle : Except Fault State → Result
  | .ok s => .next s
  | .error f => .fault f

/-! ## Tables -/

/-- The value a table lists at an address; an unlisted address has none (log entry 10). -/
def Memory.read {w : Nat} : Memory w → Nat → Option (BitVec w)
  | [], _ => none
  | (a, v) :: m, p => if a = p then some v else Memory.read m p

/-- Put a value at an address, keeping the addresses strictly rising. Only the host's loading writes a table (R54, R223). -/
def Memory.write {w : Nat} : Memory w → Nat → BitVec w → Memory w
  | [], p, v => [(p, v)]
  | (a, x) :: m, p, v =>
    if p < a then (p, v) :: (a, x) :: m
    else if p = a then (a, v) :: m
    else (a, x) :: Memory.write m p v

/-- The cells of consecutive values from an address on. -/
def Memory.ofListFrom {w : Nat} : Nat → List (BitVec w) → Memory w
  | _, [] => []
  | a, v :: vs => (a, v) :: Memory.ofListFrom (a + 1) vs

/-- A flat table as the artifact gives it, from address 0 on (R50, R86). -/
def Memory.ofList {w : Nat} (vs : List (BitVec w)) : Memory w := Memory.ofListFrom 0 vs

/-- The addresses from `lo` on are strictly rising. -/
def Memory.wfFrom {w : Nat} : Nat → Memory w → Bool
  | _, [] => true
  | lo, (a, _) :: m => decide (lo ≤ a) && Memory.wfFrom (a + 1) m

/-- The canonical form: addresses strictly rising. No unlisted address has a value, so nothing else is to be left out. -/
def Memory.wf {w : Nat} (m : Memory w) : Bool := Memory.wfFrom 0 m

/-- The table has no holes: its addresses are `0 .. |m| - 1` (R50). -/
def Memory.dense {w : Nat} (m : Memory w) : Bool := m.map Prod.fst = List.range m.length

/-- `FrameRead(a)` (R51); outside the table the model faults (R61, R201, U2). -/
def frameRead (s : State) (a : BitVec 13) : Except Fault Byte :=
  match s.artifact.frameTable.read a.toNat with
  | some b => .ok b
  | none => .error (.frameOutOfRange a)

/-- `IndexRead(p)` (R52); at or past `stream_length`, or outside the table, the model faults (R61, R201, R230, U2; log entry 11). -/
def indexRead (s : State) (p : BitVec 16) : Except Fault IndexWord :=
  if p.toNat < s.artifact.streamLength.toNat then
    match s.artifact.indexTable.read p.toNat with
    | some w => .ok w
    | none => .error (.indexOutOfRange p)
  else .error (.indexOutOfRange p)

/-! ## Cursors -/

/-- A cursor sum: unsigned, and a fault where it leaves its width (R129, R201, D7; log entry 12). -/
def addCursor {n : Nat} (c : Cursor) (x : BitVec n) (k : Nat) : Except Fault (BitVec n) :=
  if x.toNat + k < 2 ^ n then .ok (x + BitVec.ofNat n k) else .error (.cursorOverflow c)

/-- Set the three cursors (R24, R25, R26). -/
def State.setCursors (s : State) (outer inner segmentEnd : BitVec 16) : State :=
  { s with outer := outer, inner := inner, segmentEnd := segmentEnd }

/-- What FETCH.INNER writes (R124). -/
def State.setPlay (s : State) (inner : BitVec 16) (delay : BitVec 4) (offset : BitVec 12) : State :=
  { s with inner := inner, delay := delay, offset := offset }

/-- Set the frame byte cursor (R29). -/
def State.setBc (s : State) (bc : BitVec 13) : State := { s with bc := bc }

/-- Set the nibble-parity flag (R28). -/
def State.setParity (s : State) (p : Parity) : State := { s with parity := p }

/-- Set the residual-delay counter (R27). -/
def State.setDelay (s : State) (d : BitVec 4) : State := { s with delay := d }

/-- WRAP (R127): an equality test on `outer` (D24), then the loop triple into the three cursors and nothing else (C11). -/
def wrap (s : State) : State :=
  if s.outer = s.artifact.streamLength then
    s.setCursors s.artifact.loopOuter s.artifact.loopInner s.artifact.loopSegmentEnd
  else s

/-- DELAY.DEC (R153): saturates at 0. -/
def delayDec (s : State) : State :=
  if s.delay = 0 then s else s.setDelay (s.delay - 1)

/-! ## Register states and the sink -/

/-- `R[f]` (R9, R20). -/
def RegState.get (r : RegState) : (f : Field) → BitVec f.width
  | .tone0 => r.tone0
  | .tone1 => r.tone1
  | .tone2 => r.tone2
  | .noise => r.noise
  | .volume0 => r.volume0
  | .volume1 => r.volume1
  | .volume2 => r.volume2
  | .volume3 => r.volume3

/-- `R[f] <- v` (R9, R20). -/
def RegState.set (r : RegState) : (f : Field) → BitVec f.width → RegState
  | .tone0, v => { r with tone0 := v }
  | .tone1, v => { r with tone1 := v }
  | .tone2, v => { r with tone2 := v }
  | .noise, v => { r with noise := v }
  | .volume0, v => { r with volume0 := v }
  | .volume1, v => { r with volume1 := v }
  | .volume2, v => { r with volume2 := v }
  | .volume3, v => { r with volume3 := v }

/-- `StateEq(a, b)` (R21): all eight fields agree. -/
def RegState.stateEq (a b : RegState) : Bool := Field.all.all fun f => a.get f = b.get f

/-- CHANGED(f) (R101). -/
def changed (prev cur : RegState) (f : Field) : Bool := cur.get f ≠ prev.get f

/-- `Diff(prev, cur)` (R21): the changed fields with their new values, in field order. -/
def RegState.diff (prev cur : RegState) : List SinkEvent :=
  (Field.all.filter (changed prev cur)).map fun f => ⟨f, cur.get f⟩

/-- Apply events to a register state, in order (R11, R32). -/
def RegState.apply (r : RegState) (es : List SinkEvent) : RegState :=
  es.foldl (fun r e => r.set e.target e.value) r

/-- `SinkWrite(f, v)` (R53): one event to the sink, which the shadow registers follow (R32). -/
def State.sinkWrite (s : State) (e : SinkEvent) : State :=
  { s with shadow := s.shadow.set e.target e.value, events := s.events ++ [e] }

/-- A tick starts with no event emitted yet (R10, R11; log entry 5). -/
def State.clearEvents (s : State) : State := { s with events := [] }

/-! ## The host's inputs and reset -/

/-- What the host does next: the head of its queue, and a tick when the queue is empty (R204, R225; log entry 2). -/
def State.nextInput (s : State) : HostInput := s.inputs.headD .tick

/-- The queue without the input being served. -/
def State.popInput (s : State) : State := { s with inputs := s.inputs.tail }

/-- The synthesizer's new previous state and its output (R100, R106). -/
def State.setSynth (s : State) (prev : RegState) (frame : List Byte) : State :=
  { s with prev := prev, frameOut := frame }

/-- Reset of the decoder (R220, R221): the values of R35; the artifact and the synthesizer's state untouched. The observation starts anew
at tick 0 with the sink in the zero state (R11, R32, R224). DEDUCED for `shadow` and `events`, log entry 6; DESIGN CHOICE for `bc` and
`offset`, log entries 3 and 4. -/
def resetDecoder (s : State) : State :=
  { s with
    outer := 0, inner := 0, segmentEnd := 0, delay := 0, parity := .low, bc := 0, offset := 0,
    shadow := .zero, events := [] }

/-- Reset of the synthesizer (R221): `prev` becomes the zero state. -/
def resetSynth (s : State) : State := { s with prev := .zero }

end Sys2Proof.Machine
end

