-- ==== Sys2Proof/Machine/Flags.lean ====
section
/-! DEFINITION. The one flag of the block, the nibble-parity flag (R28), and the operations that read and write it. -/

namespace Sys2Proof.Machine

/-- The half of the payload byte the next nibble is in (R28, R55, R146). -/
def selectNibble (p : Parity) (b : Byte) : Nibble :=
  match p with
  | .low => b.extractLsb' 0 4
  | .high => b.extractLsb' 4 4

/-- The toggle of R146: a step past the low nibble stays on the byte, a step past the high nibble goes to the next byte. -/
def stepParity (s : State) : Except Fault State :=
  match s.parity with
  | .low => .ok (s.setParity .high)
  | .high => do
    let bc ← addCursor .bc s.bc 1
    return (s.setParity .low).setBc bc

/-- ALIGN (R150): if the nibble cursor ended mid-byte, advance the byte cursor; parity ends low. It reads no memory. -/
def align (s : State) : Except Fault State :=
  match s.parity with
  | .low => .ok s
  | .high => do
    let bc ← addCursor .bc s.bc 1
    return (s.setParity .low).setBc bc

end Sys2Proof.Machine
end

