-- ==== Sys2Proof/Machine/Operands.lean ====
section
/-! DEFINITION. The operand forms: the delay and length of an index word, payload nibbles, tone and nibble values, frame lengths
(R74, R75, R78 to R80, R146). -/

namespace Sys2Proof.Machine

/-- The delay of a literal, `zext_4(dly) + 1`, 1 to 8 (R74). -/
def delayOf (dly : BitVec 3) : BitVec 4 := dly.setWidth 4 + 1

/-- The length of a back-reference in words, `len + 2`, 2 to 9 (R75). -/
def lengthOf (len : BitVec 3) : Nat := len.toNat + 2

/-- NEXTNIBBLE (R146): the next payload nibble through the nibble cursor. -/
def nextNibble (s : State) : Except Fault (Nibble × State) := do
  let b ← frameRead s s.bc
  let t ← stepParity s
  return (selectNibble s.parity b, t)

/-- Format PT (R78, R147): `n2[1:0] ‖ n1 ‖ n0`; bits 3:2 of the third nibble are discarded (D4, U7). -/
def toneValue (n0 n1 n2 : Nibble) : BitVec 10 := n2.extractLsb' 0 2 ++ n1 ++ n0

/-- A tone field's payload: the next three nibbles (R78, R147). -/
def nextTone (s : State) : Except Fault (BitVec 10 × State) := do
  let (n0, s1) ← nextNibble s
  let (n1, s2) ← nextNibble s1
  let (n2, s3) ← nextNibble s2
  return (toneValue n0 n1 n2, s3)

/-- `NIBS(f)`, the payload nibbles a field takes (R20, R76). -/
def nibs : Field → Nat
  | .tone0 => 3
  | .tone1 => 3
  | .tone2 => 3
  | .noise => 1
  | .volume0 => 1
  | .volume1 => 1
  | .volume2 => 1
  | .volume3 => 1

/-- `popcount(v)` of R8, on a byte. -/
def popcount (v : Byte) : Nat := (List.range 8).countP fun i => v.getLsbD i

/-- `TMASK` of R76. -/
def tmask : Byte := 0x07

/-- `NMASK` of R76. -/
def nmask : Byte := 0xF8

/-- The payload nibbles of a frame, `3·T + O` (R80). -/
def payloadNibbles (h : Byte) : Nat := 3 * popcount (h &&& tmask) + popcount (h &&& nmask)

/-- `FrameLen(h) = 1 + ceil((3·T + O) / 2)` (R80, C1). -/
def frameLen (h : Byte) : Nat := 1 + (payloadNibbles h + 1) / 2

end Sys2Proof.Machine
end

