-- ==== Sys2Proof/Machine/Load.lean ====
section
/-! DEFINITION. The host's loading before reset is released (R223, R224), and the smallest artifact around one instruction
(log entry 23). None of it is a step of the machine. -/

namespace Sys2Proof.Machine

/-- An artifact from its two flat tables and its loop triple; `stream_length` is the word count of `index_table` (R86). -/
def Artifact.ofTables (frames : List Byte) (words : List IndexWord) (loopOuter loopInner loopSegmentEnd : BitVec 16) : Artifact where
  frameTable := Memory.ofList frames
  indexTable := Memory.ofList words
  loopOuter := loopOuter
  loopInner := loopInner
  loopSegmentEnd := loopSegmentEnd
  streamLength := BitVec.ofNat 16 words.length

/-- The machine with an artifact in place, the sink in the zero state, and reset released (R221, R223, R224). -/
def State.boot (a : Artifact) : State := { State.reset with artifact := a }

/-- The decoder at a tick boundary where the next tick fetches the word at `p` through FETCH.OUTER. -/
def State.atPosition (s : State) (p : Nat) : State :=
  { s with
    outer := BitVec.ofNat 16 p, inner := BitVec.ofNat 16 p, segmentEnd := BitVec.ofNat 16 p,
    delay := 0, parity := .low, inputs := [] }

/-- Put values at addresses of a table. -/
def Memory.writeAll {w : Nat} (m : Memory w) (cells : List (Nat × BitVec w)) : Memory w :=
  cells.foldl (fun m c => m.write c.1 c.2) m

/-- An index word as the next word FETCH.OUTER reads. A literal stands at position 0 and selects a zero frame at its own frame offset; a
back-reference stands right after its run, which is made of words `0x0000`. One more word `0x0000` follows, so that the stream does not
end there. -/
def State.withIndexWord (s : State) (w : IndexWord) : State :=
  let lo := (lo12Of w).toNat
  let run := if flagOf w then lengthOf (hi3Of w) else 0
  let p := if flagOf w then lo + run else 0
  let words := (List.range run).map (fun k => (lo + k, (0 : IndexWord))) ++ [(p, w), (p + 1, 0)]
  let frames : List (Nat × Byte) := if flagOf w then [(0, 0)] else [(0, 0), (lo, 0)]
  let a := s.artifact
  { s.atPosition p with
    artifact := { a with
      indexTable := Memory.writeAll a.indexTable words
      frameTable := Memory.writeAll a.frameTable frames
      streamLength := BitVec.ofNat 16 (p + 2) } }

/-- A frame header as the header of the frame the next tick unpacks: the word `LIT 1, 1` at position 0 selects it, its payload bytes are
zero. -/
def State.withHeader (s : State) (h : Byte) : State :=
  let a := s.artifact
  let frames : List (Nat × Byte) := (0, 0) :: (1, h) :: (List.range 7).map fun k => (k + 2, 0)
  { s.atPosition 0 with
    artifact := { a with
      indexTable := Memory.writeAll a.indexTable [(0, literalWord 0 1), (1, 0)]
      frameTable := Memory.writeAll a.frameTable frames
      streamLength := 2 } }

/-- The instruction with these bits where the very next step runs it: 16 bits are a word of INDEX, 8 bits a frame header. -/
def State.withTableWord (s : State) (nbits w : Nat) : State :=
  match nbits with
  | 16 => s.withIndexWord (BitVec.ofNat 16 w)
  | 8 => s.withHeader (BitVec.ofNat 8 w)
  | _ => s

end Sys2Proof.Machine
end

