-- ==== Sys2Proof/Machine/FrameWrites.lean ====
section
/-! DEFINITION. The meanings of the header operations: WR.TONE0 to WR.TONE2, WR.NOISE, WR.VOL0 to WR.VOL3, ZERO (R147 to R149, R151). -/

namespace Sys2Proof.Machine

/-- WR.TONE (R147): the next tone value to the sink as the event `event` makes of it. -/
def writeTone (event : BitVec 10 → SinkEvent) (s : State) : Except Fault State := do
  let (v, t) ← nextTone s
  return t.sinkWrite (event v)

/-- WR.NOISE and WR.VOL (R148, R149): the next nibble to the sink as the event `event` makes of it. -/
def writeNibble (event : Nibble → SinkEvent) (s : State) : Except Fault State := do
  let (v, t) ← nextNibble s
  return t.sinkWrite (event v)

/-- WR.TONE0 (R147). -/
def execWrTone0 (s : State) : Result := settle (writeTone (fun v => ⟨.tone0, v⟩) s)

/-- WR.TONE1 (R147). -/
def execWrTone1 (s : State) : Result := settle (writeTone (fun v => ⟨.tone1, v⟩) s)

/-- WR.TONE2 (R147). -/
def execWrTone2 (s : State) : Result := settle (writeTone (fun v => ⟨.tone2, v⟩) s)

/-- WR.NOISE (R148). -/
def execWrNoise (s : State) : Result := settle (writeNibble (fun v => ⟨.noise, v⟩) s)

/-- WR.VOL0 (R149). -/
def execWrVol0 (s : State) : Result := settle (writeNibble (fun v => ⟨.volume0, v⟩) s)

/-- WR.VOL1 (R149). -/
def execWrVol1 (s : State) : Result := settle (writeNibble (fun v => ⟨.volume1, v⟩) s)

/-- WR.VOL2 (R149). -/
def execWrVol2 (s : State) : Result := settle (writeNibble (fun v => ⟨.volume2, v⟩) s)

/-- WR.VOL3 (R149). -/
def execWrVol3 (s : State) : Result := settle (writeNibble (fun v => ⟨.volume3, v⟩) s)

/-- ZERO (R151): no payload is read, no event is emitted. -/
def execZero (s : State) : Result := .next s

end Sys2Proof.Machine
end

