-- ==== Sys2Proof/Machine/IndexWords.lean ====
section
/-! DEFINITION. The meanings of the words of INDEX: LIT, BREF, DLY. The same word is read at `outer` (FETCH.OUTER) or at `inner` (FETCH.INNER);
`inner = segment_end` holds exactly in the first case (R73, R121, R124; log entry 9). -/

namespace Sys2Proof.Machine

/-- A literal read at `outer` (R121, R122): `outer` advances, and the literal is a segment of one word at its own position. -/
def expandLiteral (s : State) : Except Fault State := do
  let outer ← addCursor .outer s.outer 1
  return s.setCursors outer (outer - 1) outer

/-- A word read at `inner`, as format IW (R124): `inner` advances, delay and offset are extracted. -/
def playLiteral (dly : BitVec 3) (off : BitVec 12) (s : State) : Except Fault State := do
  let inner ← addCursor .inner s.inner 1
  return s.setPlay inner (delayOf dly) off

/-- An index word with bit 15 clear, in either of its readings (R73, R89). -/
def runLiteral (dly : BitVec 3) (off : BitVec 12) (s : State) : Except Fault State :=
  if s.inner = s.segmentEnd then expandLiteral s else playLiteral dly off s

/-- A back-reference read at `outer` (R121, R123): its run must end at or before its own position (R201, U6); `outer` advances, and the
segment is the run it names. -/
def expandBackref (len : BitVec 3) (start : BitVec 12) (s : State) : Except Fault State :=
  if s.outer.toNat < start.toNat + lengthOf len then
    .error (.backrefNotBefore s.outer (backrefWord len start))
  else do
    let outer ← addCursor .outer s.outer 1
    let segmentEnd ← addCursor .segmentEnd (start.setWidth 16) (lengthOf len)
    return s.setCursors outer (start.setWidth 16) segmentEnd

/-- An index word with bit 15 set: read at `inner` it is a malformed artifact (R125, U5). -/
def runBackref (len : BitVec 3) (start : BitVec 12) (s : State) : Except Fault State :=
  if s.inner = s.segmentEnd then expandBackref len start s
  else .error (.backrefAtInner s.inner (backrefWord len start))

/-- LIT (R122, R124). -/
def execLit (dly : BitVec 3) (off : BitVec 12) (s : State) : Result := settle (runLiteral dly off s)

/-- BREF (R123, R125). -/
def execBref (len : BitVec 3) (start : BitVec 12) (s : State) : Result := settle (runBackref len start s)

/-- DLY (R83, R91): LIT with frame offset 0. -/
def execDly (dly : BitVec 3) (s : State) : Result := settle (runLiteral dly 0 s)

end Sys2Proof.Machine
end

