-- ==== Sys2Proof/Machine/Dispatch.lean ====
section
/-! DEFINITION. One arm for each constructor of Instr, one meaning for each arm. -/

namespace Sys2Proof.Machine

def exec (i : Instr) (s : State) : Host.Outcome State Fault Refusal :=
  match i with
  | .lit dly off => Sys2Proof.Machine.execLit dly off s
  | .bref len start => Sys2Proof.Machine.execBref len start s
  | .wrTone0 => Sys2Proof.Machine.execWrTone0 s
  | .wrTone1 => Sys2Proof.Machine.execWrTone1 s
  | .wrTone2 => Sys2Proof.Machine.execWrTone2 s
  | .wrNoise => Sys2Proof.Machine.execWrNoise s
  | .wrVol0 => Sys2Proof.Machine.execWrVol0 s
  | .wrVol1 => Sys2Proof.Machine.execWrVol1 s
  | .wrVol2 => Sys2Proof.Machine.execWrVol2 s
  | .wrVol3 => Sys2Proof.Machine.execWrVol3 s
  | .zero => Sys2Proof.Machine.execZero s
  | .dly dly => Sys2Proof.Machine.execDly dly s

end Sys2Proof.Machine
end

