-- ==== Sys2Proof/Machine/Synth.lean ====
section
/-! DEFINITION. The frame synthesizer: a register-state change to a variable-length frame (R100 to R110). -/

namespace Sys2Proof.Machine

/-- PACK.TONE(v) (R103): low nibble, middle nibble, high two bits under two zero bits (D4). -/
def packTone (v : BitVec 10) : List Nibble :=
  [v.extractLsb' 0 4, v.extractLsb' 4 4, 0#2 ++ v.extractLsb' 8 2]

/-- PACK.NIB(v) (R104). -/
def packNib (v : BitVec 4) : List Nibble := [v]

/-- The payload of one changed field (R77, R100). -/
def packField : (f : Field) → BitVec f.width → List Nibble
  | .tone0, v => packTone v
  | .tone1, v => packTone v
  | .tone2, v => packTone v
  | .noise, v => packNib v
  | .volume0, v => packNib v
  | .volume1, v => packNib v
  | .volume2, v => packNib v
  | .volume3, v => packNib v

/-- PACK.BYTES(nibs) (R105): least-significant nibble first, two per byte, an odd last nibble under PAD_NIBBLE. -/
def packBytes : List Nibble → List Byte
  | [] => []
  | [n] => [Config.padNibble ++ n]
  | n0 :: n1 :: ns => (n1 ++ n0) :: packBytes ns

/-- The changed fields, in field order (R101). -/
def changedFields (prev cur : RegState) : List Field := Field.all.filter (changed prev cur)

/-- The header of the frame (R102). -/
def synthHeader (prev cur : RegState) : Byte := headerOf (changedFields prev cur)

/-- The payload nibbles of the frame (R100). -/
def synthNibbles (prev cur : RegState) : List Nibble :=
  (changedFields prev cur).flatMap fun f => packField f (cur.get f)

/-- The frame SYNTH returns; `len` is its length (R100). -/
def synthFrame (prev cur : RegState) : List Byte :=
  synthHeader prev cur :: packBytes (synthNibbles prev cur)

/-- SYNTH(cur) (R100, R106): the frame of the change from `prev`, then `prev <- cur`. -/
def synth (cur : RegState) (s : State) : State := s.setSynth cur (synthFrame s.prev cur)

end Sys2Proof.Machine
end

