-- ==== Sys2Proof/Machine/Tick.lean ====
section
/-! DEFINITION. The tick procedure, the frame unpacker, and the serving of one host input (R121, R124, R140 to R143, R204 to R207). -/

namespace Sys2Proof.Machine

/-- Read the word of INDEX at a position and run the instruction it decodes to. -/
def runWord (p : BitVec 16) (s : State) : Result :=
  match indexRead s p with
  | .ok w => exec (decodeWord w) s
  | .error f => .fault f

/-- FETCH.OUTER and its gate (R121, R140): only when no segment is in flight. -/
def fetchOuter (s : State) : Result :=
  if s.inner = s.segmentEnd then runWord s.outer s else .next s

/-- FETCH.INNER (R124): the word at `inner`. -/
def fetchInner (s : State) : Result := runWord s.inner s

/-- Run header operations one after the other (R89, R143). -/
def runOps : List Instr → State → Result
  | [], s => .next s
  | i :: is, s => andThen (exec i s) (runOps is)

/-- The start of UNPACK (R143): the byte cursor at the frame offset, the header read, the cursor on the first payload byte. -/
def startFrame (s : State) : Except Fault (Byte × State) := do
  let s1 := s.setBc (s.offset.setWidth 13)
  let h ← frameRead s1 s1.bc
  let bc ← addCursor .bc s1.bc 1
  return (h, s1.setBc bc)

/-- UNPACK(offset) (R143): the header, then the operations of its set bits in field order, then ALIGN. -/
def unpack (s : State) : Result :=
  match startFrame s with
  | .ok (h, t) => andThen (runOps (decodeHeader h) t) fun u => settle (align u)
  | .error f => .fault f

/-- Steps 3 and 4 of a tick (R140, R152, R153): WRAP, then DELAY.DEC. -/
def finishTick (s : State) : State := delayDec (wrap s)

/-- What a fetch tick does once FETCH.OUTER is past (R140). -/
def playWord (s : State) : Result :=
  andThen (fetchInner s) fun t => andThen (unpack t) fun u => .next (finishTick u)

/-- TICK (R140): a fetch tick if `delay = 0` at its start, else an idle tick (R141, R142). -/
def tick (s : State) : Result :=
  if s.delay = 0 then andThen (fetchOuter s.clearEvents) playWord else .next (finishTick s.clearEvents)

/-- Serve one host input: one tick, one SYNTH, or a reset (R204, R100, R220, R221; log entries 1 and 2). -/
def serve : HostInput → State → Result
  | .tick, s => tick s
  | .synth cur, s => .next (synth cur s)
  | .reset, s => .next (resetDecoder s)
  | .synthReset, s => .next (resetSynth s)

end Sys2Proof.Machine
end

