-- ==== Sys2Proof/Machine/Step.lean ====
section
/-! DEFINITION. One step: the host's next input is served (log entries 1 and 2). -/

namespace Sys2Proof.Machine

/-- One step: with no other input queued, one whole TICK (R10, R140). -/
def step (s : State) : Host.Outcome State Fault Refusal :=
  Sys2Proof.Machine.serve s.nextInput s.popInput

/-- The state whose next step runs the instruction with these bits (log entry 23). -/
def State.withFetchWord (s : State) (nbits w : Nat) : State :=
  Sys2Proof.Machine.State.withTableWord s nbits w

end Sys2Proof.Machine
end

