-- ==== Sys2Proof/Machine/Producer.lean ====
section
/-! DEFINITION. The artifact producer, build-time software around the hardware: dictionary, delay/index encoder, compressor, loop remap, and
the expansion that inverts the compressor (R130, R170 to R189). Pure functions, no step of the machine (log entry 24). -/

namespace Sys2Proof.Machine

/-- Why a build ends with no artifact (R203), and the two inputs outside an operation's domain (U4, U13). -/
inductive BuildFailure where
  /-- INTERN would make `frame_table` longer than 4096 bytes (R174, D10). -/
  | capacityFrameTable
  /-- The loop offset is not below `|U|` (R184, D23). -/
  | loopOffsetOutOfRange
  /-- The compressed stream is longer than STREAM_LEN_MAX (R184, D11). -/
  | capacityIndexStream
  /-- Bit 15 of a pre-compression word is set (R87, U4). -/
  | reservedBitSet
  /-- `EMIT` with a delay of 0 (R175, U13). -/
  | delayOutOfDomain
  deriving DecidableEq, Repr

/-! ## The frame dictionary -/

/-- The dictionary: the frame table and the entries (offset, length) in order of insertion (R172). -/
structure Dictionary where
  frameTable : List Byte
  entries : List (Nat × Nat)
  deriving DecidableEq, Repr

/-- INIT (R173): one entry, the zero frame at offset 0. -/
def dictInit : Dictionary := ⟨[0], [(0, 1)]⟩

/-- The frame an entry names (R172). -/
def Dictionary.frameAt (d : Dictionary) (e : Nat × Nat) : List Byte := (d.frameTable.drop e.1).take e.2

/-- The scan of INTERN (R172): the first entry whose frame is these bytes. -/
def Dictionary.lookup (d : Dictionary) (bytes : List Byte) : Option (Nat × Nat) :=
  d.entries.find? fun e => e.2 = bytes.length && d.frameAt e = bytes

/-- INTERN(bytes) (R172, R174). -/
def intern (bytes : List Byte) (d : Dictionary) : Except BuildFailure (Nat × Dictionary) :=
  match d.lookup bytes with
  | some e => .ok (e.1, d)
  | none =>
    let o := d.frameTable.length
    if Config.frameTableMax < o + bytes.length then .error .capacityFrameTable
    else .ok (o, ⟨d.frameTable ++ bytes, d.entries ++ [(o, bytes.length)]⟩)

/-- INTERN of several frames, one after the other, as BUILD calls it (R171, R172). -/
def internAll : List (List Byte) → Dictionary → Except BuildFailure Dictionary
  | [], d => .ok d
  | f :: fs, d => do
    let (_, d') ← intern f d
    internAll fs d'

/-! ## The delay/index encoder -/

/-- The words of a delay chain after the first, for the delay that remains (R176); `fuel` bounds the number of words. -/
def emitTail : Nat → Nat → List IndexWord
  | 0, _ => []
  | fuel + 1, r =>
    if 8 < r then literalWord 7 0 :: emitTail fuel (r - 8)
    else [literalWord (BitVec.ofNat 3 (r - 1)) 0]

/-- EMIT(off, d): the words appended to `U` (R175, R176). -/
def emit (off : BitVec 12) (d : Nat) : Except BuildFailure (List IndexWord) :=
  if d = 0 then .error .delayOutOfDomain
  else if d ≤ 8 then .ok [literalWord (BitVec.ofNat 3 (d - 1)) off]
  else .ok (literalWord 7 off :: emitTail (d - 8) (d - 8))

/-! ## The index-stream compressor -/

/-- How many words two streams share from their starts, at most `cap` (R177, R179). -/
def runLength : Nat → List IndexWord → List IndexWord → Nat
  | 0, _, _ => 0
  | _ + 1, [], _ => 0
  | _ + 1, _ :: _, [] => 0
  | cap + 1, x :: xs, y :: ys => if x = y then runLength cap xs ys + 1 else 0

/-- MATCH (R177 to R179): the longest run of the output so far that the remaining input starts with, the lowest start among equals, at most
9 words; starts above 4095 have no encoding and are skipped (R184). Answers (length, start). -/
def matchRun (out rest : List IndexWord) : Nat × Nat :=
  (List.range (min out.length 4096)).foldl
    (fun best s =>
      let l := runLength 9 (out.drop s) rest
      if best.1 < l then (l, s) else best)
    (0, 0)

/-- The loop triple as positions (R86). -/
structure LoopTriple where
  outer : Nat
  inner : Nat
  segmentEnd : Nat
  deriving DecidableEq, Repr

/-- LOOPMAP, literal case (R181): `p` the output position, `i` the input cursor. -/
def loopMapLiteral (loopOffset p i : Nat) : Option LoopTriple :=
  if i = loopOffset then some ⟨p + 1, p, p + 1⟩ else none

/-- LOOPMAP, back-reference case (R182): length `bl` from `bs`. -/
def loopMapBackref (loopOffset p i bs bl : Nat) : Option LoopTriple :=
  if i ≤ loopOffset ∧ loopOffset < i + bl then some ⟨p + 1, bs + (loopOffset - i), bs + bl⟩ else none

/-- The main loop of COMPRESS (R180): the remaining input, the input cursor, the output so far, the triple once it is set (R183). -/
def compressLoop (loopOffset : Nat) :
    Nat → List IndexWord → Nat → List IndexWord → Option LoopTriple → List IndexWord × Option LoopTriple
  | 0, _, _, out, triple => (out, triple)
  | _ + 1, [], _, out, triple => (out, triple)
  | fuel + 1, u :: rest, i, out, triple =>
    let m := matchRun out (u :: rest)
    if 2 ≤ m.1 then
      compressLoop loopOffset fuel ((u :: rest).drop m.1) (i + m.1)
        (out ++ [backrefWord (BitVec.ofNat 3 (m.1 - 2)) (BitVec.ofNat 12 m.2)])
        (triple <|> loopMapBackref loopOffset out.length i m.2 m.1)
    else
      compressLoop loopOffset fuel rest (i + 1) (out ++ [u])
        (triple <|> loopMapLiteral loopOffset out.length i)

/-- COMPRESS(U, loop_offset) (R180 to R184), with STREAM_LEN_MAX as an argument. -/
def compress (maxLen : Nat) (u : List IndexWord) (loopOffset : Nat) :
    Except BuildFailure (List IndexWord × LoopTriple) :=
  if u.any flagOf then .error .reservedBitSet
  else
    match compressLoop loopOffset u.length u 0 [] none with
    | (_, none) => .error .loopOffsetOutOfRange
    | (out, some t) => if maxLen < out.length then .error .capacityIndexStream else .ok (out, t)

/-- The words one compressed word stands for (R130). Where a back-reference's run passes the end of the stream, which WF4 excludes, the spec
gives the missing words no value (R61): the run is cut to the words that exist. DESIGN CHOICE, log entry 32. -/
def expandWord (c : List IndexWord) (w : IndexWord) : List IndexWord :=
  if flagOf w then (c.drop (lo12Of w).toNat).take (lengthOf (hi3Of w)) else [w]

/-- Expand(C) (R130); on a stream that breaks WF4 as `expandWord` has it, log entry 32. -/
def expand (c : List IndexWord) : List IndexWord := c.flatMap (expandWord c)

/-! ## The driver -/

/-- A step of the driver: register writes, then a delay of whole ticks (R171, D13). -/
structure BuildStep where
  writes : List SinkEvent
  ticks : Nat
  deriving DecidableEq, Repr

/-- The loop of BUILD over its steps (R171): `cur`, the synthesizer's `prev`, the dictionary and `U`. -/
def buildSteps : List BuildStep → RegState → RegState → Dictionary → List IndexWord →
    Except BuildFailure (Dictionary × List IndexWord)
  | [], _, _, d, u => .ok (d, u)
  | b :: bs, cur, prev, d, u => do
    let cur' := cur.apply b.writes
    let (off, d') ← intern (synthFrame prev cur') d
    let words ← emit (BitVec.ofNat 12 off) b.ticks
    buildSteps bs cur' cur' d' (u ++ words)

/-- BUILD(steps, loop_offset) (R171, R185); a source with no loop point uses loop offset 0 (R184, D12). -/
def build (maxLen : Nat) (steps : List BuildStep) (loopOffset : Option Nat) : Except BuildFailure Artifact := do
  let (d, u) ← buildSteps steps .zero .zero dictInit []
  let (c, t) ← compress maxLen u (loopOffset.getD 0)
  return Artifact.ofTables d.frameTable c (BitVec.ofNat 16 t.outer) (BitVec.ofNat 16 t.inner) (BitVec.ofNat 16 t.segmentEnd)

end Sys2Proof.Machine
end

