-- ==== Sys2Proof/Safety.lean ====
section
/-! DEFINITION. What counts as a well-formed artifact (R66) and as a safe state between ticks (R36), and what a run is observed to play
(R11, R130, R154). -/

namespace Sys2Proof.Machine

/-! ## The well-formed artifact (R66) -/

/-- `N`, the word count the decoder believes (R30). -/
def Artifact.wordCount (a : Artifact) : Nat := a.streamLength.toNat

/-- The word at a position is listed and is a literal. -/
def Artifact.literalAt (a : Artifact) (p : Nat) : Bool :=
  match a.indexTable.read p with
  | some w => !flagOf w
  | none => false

/-- Every position from `lo` up to, not including, `hi` holds a literal. -/
def Artifact.literalsIn (a : Artifact) (lo hi : Nat) : Bool :=
  (List.range (hi - lo)).all fun k => a.literalAt (lo + k)

/-- The frame at an offset has its header in the table and does not run past its end. -/
def Artifact.frameFits (a : Artifact) (o : Nat) : Bool :=
  match a.frameTable.read o with
  | some h => decide (o + frameLen h ≤ a.frameTable.length)
  | none => false

/-- WF1: `stream_length` is the table's length, at least 1, at most STREAM_LEN_MAX; the table has no holes. -/
def Artifact.wf1 (maxLen : Nat) (a : Artifact) : Bool :=
  a.indexTable.dense && decide (a.wordCount = a.indexTable.length) && decide (1 ≤ a.wordCount) &&
    decide (a.wordCount ≤ maxLen)

/-- WF2: 1 to 4096 frame bytes without holes, the first of them the zero frame. -/
def Artifact.wf2 (a : Artifact) : Bool :=
  a.frameTable.dense && decide (1 ≤ a.frameTable.length) && decide (a.frameTable.length ≤ Config.frameTableMax) &&
    decide (a.frameTable.read 0 = some 0)

/-- WF3 at one position: a literal's frame lies in the table. -/
def Artifact.wf3At (a : Artifact) (p : Nat) : Bool :=
  match a.indexTable.read p with
  | some w => flagOf w || a.frameFits (lo12Of w).toNat
  | none => false

/-- WF3. -/
def Artifact.wf3 (a : Artifact) : Bool := (List.range a.wordCount).all a.wf3At

/-- WF4 at one position: a back-reference's run ends at or before its own position and is all literals. -/
def Artifact.wf4At (a : Artifact) (p : Nat) : Bool :=
  match a.indexTable.read p with
  | some w =>
    let start := (lo12Of w).toNat
    let stop := start + lengthOf (hi3Of w)
    !flagOf w || (decide (stop ≤ p) && a.literalsIn start stop)
  | none => false

/-- WF4. -/
def Artifact.wf4 (a : Artifact) : Bool := (List.range a.wordCount).all a.wf4At

/-- WF5: the loop triple lies in the stream and its segment is non-empty and all literals. -/
def Artifact.wf5 (a : Artifact) : Bool :=
  decide (1 ≤ a.loopOuter.toNat) && decide (a.loopOuter.toNat ≤ a.wordCount) &&
    decide (a.loopInner.toNat < a.loopSegmentEnd.toNat) && decide (a.loopSegmentEnd.toNat ≤ a.loopOuter.toNat) &&
    a.literalsIn a.loopInner.toNat a.loopSegmentEnd.toNat

/-- WF6: the form the compressor gives the triple. -/
def Artifact.wf6 (a : Artifact) : Bool :=
  match a.indexTable.read (a.loopOuter.toNat - 1) with
  | some w =>
    let start := (lo12Of w).toNat
    let stop := start + lengthOf (hi3Of w)
    decide (1 ≤ a.loopOuter.toNat) &&
      (if flagOf w then
        decide (start ≤ a.loopInner.toNat) && decide (a.loopInner.toNat < stop) && decide (a.loopSegmentEnd.toNat = stop)
      else decide (a.loopInner.toNat + 1 = a.loopOuter.toNat) && decide (a.loopSegmentEnd = a.loopOuter))
  | none => false

/-- WF7, the tail clause: the last compressed word is a literal. -/
def Artifact.wf7 (a : Artifact) : Bool := decide (1 ≤ a.wordCount) && a.literalAt (a.wordCount - 1)

/-- WF1 to WF5: what makes every step of the decoder defined (R66). -/
def Artifact.wfDefined (maxLen : Nat) (a : Artifact) : Bool := a.wf1 maxLen && a.wf2 && a.wf3 && a.wf4 && a.wf5

/-- `WF(A)` (R66). -/
def Artifact.wf (maxLen : Nat) (a : Artifact) : Bool := a.wfDefined maxLen && a.wf6 && a.wf7

/-! ## Safe states between ticks (R36) -/

/-- R36 (a) and (b), with the canonical form of the two tables: what every step keeps, whatever the artifact. -/
abbrev QuietState (s : State) : Prop :=
  s.parity = .low ∧ s.delay.toNat ≤ 7 ∧ s.artifact.frameTable.wf = true ∧ s.artifact.indexTable.wf = true

/-- R36 for a machine that plays a well-formed artifact. The clauses `segment_end ≤ outer` and `outer = stream_length → inner < segment_end`
are the model's own strengthening, which makes the invariant inductive (DEDUCED from R122, R123, R127 and WF5, log entry 30). -/
abbrev Running (maxLen : Nat) (s : State) : Prop :=
  s.artifact.wfDefined maxLen = true ∧ s.parity = .low ∧ s.delay.toNat ≤ 7 ∧
    s.outer.toNat ≤ s.artifact.wordCount ∧
    (s.outer.toNat = s.artifact.wordCount → s.outer = s.artifact.loopOuter ∧ s.inner.toNat < s.segmentEnd.toNat) ∧
    s.inner.toNat ≤ s.segmentEnd.toNat ∧ s.segmentEnd.toNat ≤ s.outer.toNat ∧
    s.artifact.literalsIn s.inner.toNat s.segmentEnd.toNat = true

/-! ## What a run is observed to do -/

/-- `k` steps, one after the other, up to the first fault or refusal. -/
def runFor : Nat → State → Result
  | 0, s => .next s
  | k + 1, s => andThen (step s) (runFor k)

/-- The word FETCH.INNER reads in the tick that starts in `s`; none in an idle tick (R124, R130, R141). -/
def playedWord (s : State) : Option IndexWord :=
  if s.delay = 0 then
    match fetchOuter s.clearEvents with
    | .next t => t.artifact.indexTable.read t.inner.toNat
    | .fault _ => none
    | .refused _ => none
  else none

/-- The ticks a word occupies (R74, R130, R141). -/
def ticksOf (w : IndexWord) : Nat := (hi3Of w).toNat + 1

/-- The ticks a stream of words occupies (R128, R130). -/
def totalTicks (ws : List IndexWord) : Nat := (ws.map ticksOf).sum

/-- The state the WRAP of the tick that starts in `s` finds: steps 1 and 2 of the tick done (R140, R152). -/
def beforeWrap (s : State) : Result :=
  if s.delay = 0 then andThen (fetchOuter s.clearEvents) fun t => andThen (fetchInner t) unpack
  else .next s.clearEvents

/-- From `s` on exactly the words `ws` are played, each once and in order: the `k`-th in the tick that starts when the delays of the words
before it have passed, and none in any other of their ticks (R130, R141). -/
def playsExactly (ws : List IndexWord) (s : State) : Prop :=
  (∀ (k : Nat) (w : IndexWord), ws[k]? = some w →
    ∃ t, runFor (totalTicks (ws.take k)) s = .next t ∧ playedWord t = some w) ∧
  (∀ n, n < totalTicks ws → (∀ k, k < ws.length → n ≠ totalTicks (ws.take k)) →
    ∃ t, runFor n s = .next t ∧ playedWord t = none)

/-- A decoder that goes on from the loop point with nothing but ticks to come: the cursors are the loop triple of its artifact, and the next
fetch is due (R127, R133). -/
abbrev atLoopPoint (a : Artifact) (s : State) : Prop :=
  s.artifact = a ∧ s.inputs = [] ∧ s.delay = 0 ∧ s.parity = .low ∧ s.outer = a.loopOuter ∧ s.inner = a.loopInner ∧
    s.segmentEnd = a.loopSegmentEnd

/-- `index_table` as the flat table it is (R86). -/
def Artifact.words (a : Artifact) : List IndexWord := a.indexTable.map Prod.snd

/-- The words the loop triple stands for: the rest of its segment, then the expansion of the stream from `loop_outer` on (R133). -/
def Artifact.loopWords (a : Artifact) : List IndexWord :=
  (a.words.drop a.loopInner.toNat).take (a.loopSegmentEnd.toNat - a.loopInner.toNat) ++
    (a.words.drop a.loopOuter.toNat).flatMap (expandWord a.words)

/-- The entries of a dictionary lie in its table (R172). -/
abbrev Dictionary.entriesFit (d : Dictionary) : Prop := ∀ e ∈ d.entries, e.1 + e.2 ≤ d.frameTable.length

/-- The targets are in strictly ascending field order, so each occurs at most once (R144, R154). -/
def ascendingTargets (es : List SinkEvent) : Prop :=
  List.Pairwise (fun e e' => e.target.index < e'.target.index) es

/-- Everything the host's step changes but the two transient fields `bc` and `offset` (R29; log entry 4). -/
def sameButTransient (s t : State) : Prop := { s with bc := t.bc, offset := t.offset } = t

/-- Two outcomes alike but for the transient fields of the next state. -/
def sameOutcomeButTransient : Result → Result → Prop
  | .next s, .next t => sameButTransient s t
  | .fault f, .fault g => f = g
  | .refused r, .refused q => r = q
  | _, _ => False

end Sys2Proof.Machine
end

