-- ==== Sys2Proof/Certificates/Slice0/Obligations.lean ====
section
/-! DEFINITION. The statements for the provers. -/

open Sys2Proof Sys2Proof.Machine

/-! ## Encoding -/

/-- R71, R72, R76, R83, R89: decoding the encoding of a well-formed instruction gives exactly that instruction, at every operand value. -/
def Obligations.DecodeOfEncodeIsTheInstruction : Prop :=
  ∀ i : Instr, i.wellFormed = true → decode (encode i) = [i]

/-- R71, R72: the word of a literal is `(delay-1) << 12 | off`, of a back-reference `0x8000 | (length-2) << 12 | start`, for every value of
their fields; both decode by bit 15. The literal with `off = 0` is spelled DLY (R83, R91): the model's choice, log entry 7. -/
def Obligations.WordsHaveTheirFieldsValues : Prop :=
  (∀ (dly : BitVec 3) (off : BitVec 12), ∃ w : IndexWord, encode (.lit dly off) = .word w ∧
    w.toNat = dly.toNat * 2 ^ 12 + off.toNat ∧ decodeWord w = if off = 0 then .dly dly else .lit dly off) ∧
  (∀ (len : BitVec 3) (start : BitVec 12), ∃ w : IndexWord, encode (.bref len start) = .word w ∧
    w.toNat = 0x8000 + len.toNat * 2 ^ 12 + start.toNat ∧ decodeWord w = .bref len start)

/-- R88: every 16-bit word is a valid word, and no bit of it is dropped by decoding. -/
def Obligations.EncodeOfDecodedWordIsTheWord : Prop :=
  ∀ w : IndexWord, (decodeWord w).wellFormed = true ∧ encode (decodeWord w) = .word w

/-- R76, R89, with HDR_BIT of D3 (log entry 13): a header decodes to the operations of exactly its set bits, in ascending bit order, and the
operations give the header back. -/
def Obligations.HeaderDecodesToItsSetBits : Prop :=
  ∀ h : Byte, encodeHeader (decodeHeader h) = h ∧ headerOpsWellFormed (decodeHeader h) = true ∧
    ∀ f : Field, Instr.ofField f ∈ decodeHeader h ↔ h.getLsbD f.index = true

/-- R89, R144, with HDR_BIT of D3 (log entry 13): every list of header operations in field order is the decoding of the header it makes. -/
def Obligations.HeaderOperationsDecodeBack : Prop :=
  ∀ ops : List Instr, headerOpsWellFormed ops = true → decodeHeader (encodeHeader ops) = ops

/-- R92 and the vectors of 95_test_vectors.md 2.1: words and headers written out from the encodings decode to what they stand for. -/
def Obligations.SampleCodesDecode : Prop :=
  decodeWord 0b0000000000000001#16 = .lit 0 1 ∧ decodeWord 0b0001000000000100#16 = .lit 1 4 ∧
  decodeWord 0b0111000000000000#16 = .dly 7 ∧ decodeWord 0b0111111111111111#16 = .lit 7 4095 ∧
  decodeWord 0b1000000000000000#16 = .bref 0 0 ∧ decodeWord 0b1001000100100011#16 = .bref 1 0x123 ∧
  decodeHeader 0b00000000#8 = [.zero] ∧ decodeHeader 0b00001100#8 = [.wrTone2, .wrNoise] ∧
  decodeHeader 0b10010000#8 = [.wrVol0, .wrVol3]

/-! ## The words of INDEX -/

/-- R121, R122, R123: with no segment in flight, the word at `outer` advances `outer` and opens its segment: its own position for a
literal, the named run for a back-reference whose run ends at or before its own position. Nothing else changes. -/
def Obligations.FetchOuterExpandsTheWordAtOuter : Prop :=
  ∀ (s : State) (w : IndexWord), s.inner = s.segmentEnd → indexRead s s.outer = .ok w →
    (w.getLsbD 15 = false →
      fetchOuter s = .next { s with outer := s.outer + 1, inner := s.outer + 1 - 1, segmentEnd := s.outer + 1 }) ∧
    (w.getLsbD 15 = true → (lo12Of w).toNat + (hi3Of w).toNat + 2 ≤ s.outer.toNat →
      fetchOuter s = .next { s with
        outer := s.outer + 1
        inner := (lo12Of w).setWidth 16
        segmentEnd := (lo12Of w).setWidth 16 + ((hi3Of w).setWidth 16 + 2) })

/-- R124: the word at `inner` advances `inner`, sets the delay from bits 14:12 plus 1 and the frame offset from bits 11:0. Nothing else
changes. Outside the stream, or on a word with bit 15 set, the model stops by name (R125, R201; D9, D19, log entry 18). (FETCH.OUTER leaves `inner ≠ segment_end`:
`FetchOuterLeavesASegmentInFlight`.) -/
def Obligations.FetchInnerExtractsDelayAndOffset : Prop :=
  ∀ s : State, s.inner ≠ s.segmentEnd →
    (s.artifact.wordCount ≤ s.inner.toNat → fetchInner s = .fault (.indexOutOfRange s.inner)) ∧
    (∀ x : IndexWord, indexRead s s.inner = .ok x →
      (x.getLsbD 15 = true → fetchInner s = .fault (.backrefAtInner s.inner x)) ∧
      (x.getLsbD 15 = false → fetchInner s = .next { s with
        inner := s.inner + 1, delay := (x.extractLsb' 12 3).setWidth 4 + 1, offset := x.extractLsb' 0 12 }))

/-- R121 to R126: whenever FETCH.OUTER's turn ends in a next state, a segment is in flight, so the word at `inner` is played next. -/
def Obligations.FetchOuterLeavesASegmentInFlight : Prop :=
  ∀ s t : State, fetchOuter s = .next t → t.inner ≠ t.segmentEnd

/-- R122: LIT read at `outer` completes as the segment of its own position, whatever its fields. -/
def Obligations.LitAtOuterIsItsOwnSegment : Prop :=
  ∀ (dly : BitVec 3) (off : BitVec 12) (s : State), s.inner = s.segmentEnd → s.outer ≠ 0xFFFF →
    exec (.lit dly off) s = .next { s with outer := s.outer + 1, inner := s.outer + 1 - 1, segmentEnd := s.outer + 1 }

/-- R74, R89, R124: LIT read at `inner` completes with delay `dly + 1` and frame offset `off`. -/
def Obligations.LitAtInnerSetsDelayAndOffset : Prop :=
  ∀ (dly : BitVec 3) (off : BitVec 12) (s : State), s.inner ≠ s.segmentEnd → s.inner ≠ 0xFFFF →
    exec (.lit dly off) s = .next { s with inner := s.inner + 1, delay := dly.setWidth 4 + 1, offset := off }

/-- R123: BREF read at `outer` completes as the run it names. A run that ends exactly at the back-reference's own position is allowed; one
that ends after it makes the model stop by name (R201; D9, D19, log entry 18). -/
def Obligations.BrefAtOuterEntersItsRun : Prop :=
  ∀ (len : BitVec 3) (start : BitVec 12) (s : State), s.inner = s.segmentEnd → s.outer ≠ 0xFFFF →
    (start.toNat + len.toNat + 2 ≤ s.outer.toNat →
      exec (.bref len start) s = .next { s with
        outer := s.outer + 1, inner := start.setWidth 16, segmentEnd := start.setWidth 16 + (len.setWidth 16 + 2) }) ∧
    (s.outer.toNat < start.toNat + len.toNat + 2 →
      exec (.bref len start) s = .fault (.backrefNotBefore s.outer (1#1 ++ len ++ start)))

/-- R83, R91: DLY is LIT with frame offset 0, in both of its readings; it completes as LIT does. -/
def Obligations.DlyIsALiteralWithOffsetZero : Prop :=
  ∀ (dly : BitVec 3) (s : State),
    (s.inner = s.segmentEnd → s.outer ≠ 0xFFFF →
      exec (.dly dly) s = .next { s with outer := s.outer + 1, inner := s.outer + 1 - 1, segmentEnd := s.outer + 1 }) ∧
    (s.inner ≠ s.segmentEnd → s.inner ≠ 0xFFFF →
      exec (.dly dly) s = .next { s with inner := s.inner + 1, delay := dly.setWidth 4 + 1, offset := 0 }) ∧
    exec (.dly dly) s = exec (.lit dly 0) s

/-- R125, R201 code 3 (D9, D19; log entry 18): a back-reference read at `inner` makes the model stop. -/
def Obligations.BackrefAtInnerFaults : Prop :=
  ∀ (len : BitVec 3) (start : BitVec 12) (s : State), s.inner ≠ s.segmentEnd →
    exec (.bref len start) s = .fault (.backrefAtInner s.inner (1#1 ++ len ++ start))

/-- R129, R201 code 5 (D7, D19; log entries 12 and 15): a cursor at 65535 cannot advance. -/
def Obligations.CursorOverflowFaults : Prop :=
  ∀ (dly : BitVec 3) (off : BitVec 12) (s : State),
    (s.inner = s.segmentEnd → s.outer = 0xFFFF →
      exec (.lit dly off) s = .fault (.cursorOverflow .outer) ∧ exec (.dly dly) s = .fault (.cursorOverflow .outer) ∧
      exec (.bref dly off) s = .fault (.cursorOverflow .outer)) ∧
    (s.inner ≠ s.segmentEnd → s.inner = 0xFFFF →
      exec (.lit dly off) s = .fault (.cursorOverflow .inner) ∧ exec (.dly dly) s = .fault (.cursorOverflow .inner))

/-- R61, R201 code 1 (D9, D19; log entries 11 and 18): a fetch outside the stream stops with the position. -/
def Obligations.FetchOutsideTheStreamFaults : Prop :=
  ∀ s : State,
    (s.inner = s.segmentEnd → s.artifact.wordCount ≤ s.outer.toNat → fetchOuter s = .fault (.indexOutOfRange s.outer)) ∧
    (s.artifact.wordCount ≤ s.inner.toNat → fetchInner s = .fault (.indexOutOfRange s.inner))

/-! ## The header operations -/

/-- A tone write from either half of a payload byte: three nibbles, low, middle, high two bits, into one event of 10 bits (R146, R147).
Bits 3:2 of the third nibble are discarded (D4, log entry 14). -/
def writesTone (i : Instr) (event : BitVec 10 → SinkEvent) : Prop :=
  ∀ (s : State) (b0 b1 : Byte), s.artifact.frameTable.read s.bc.toNat = some b0 →
    s.artifact.frameTable.read (s.bc.toNat + 1) = some b1 →
    (s.parity = .low → s.bc.toNat + 1 < 8192 →
      exec i s = .next (({ s with bc := s.bc + 1, parity := .high }).sinkWrite
        (event (b1.extractLsb' 0 2 ++ b0.extractLsb' 4 4 ++ b0.extractLsb' 0 4)))) ∧
    (s.parity = .high → s.bc.toNat + 2 < 8192 →
      exec i s = .next (({ s with bc := s.bc + 2, parity := .low }).sinkWrite
        (event (b1.extractLsb' 4 2 ++ b1.extractLsb' 0 4 ++ b0.extractLsb' 4 4))))

/-- A noise or volume write from either half of a payload byte: one nibble into one event of 4 bits (R146, R148, R149). -/
def writesNibble (i : Instr) (event : BitVec 4 → SinkEvent) : Prop :=
  ∀ (s : State) (b : Byte), s.artifact.frameTable.read s.bc.toNat = some b →
    (s.parity = .low →
      exec i s = .next (({ s with parity := .high }).sinkWrite (event (b.extractLsb' 0 4)))) ∧
    (s.parity = .high → s.bc.toNat + 1 < 8192 →
      exec i s = .next (({ s with bc := s.bc + 1, parity := .low }).sinkWrite (event (b.extractLsb' 4 4))))

/-- R147: WR.TONE0, WR.TONE1, WR.TONE2. -/
def Obligations.ToneWritesAssembleThreeNibbles : Prop :=
  writesTone .wrTone0 (fun v => ⟨.tone0, v⟩) ∧ writesTone .wrTone1 (fun v => ⟨.tone1, v⟩) ∧
    writesTone .wrTone2 (fun v => ⟨.tone2, v⟩)

/-- R148, R149: WR.NOISE and WR.VOL0 to WR.VOL3. -/
def Obligations.NibbleWritesPassOneNibble : Prop :=
  writesNibble .wrNoise (fun v => ⟨.noise, v⟩) ∧ writesNibble .wrVol0 (fun v => ⟨.volume0, v⟩) ∧
    writesNibble .wrVol1 (fun v => ⟨.volume1, v⟩) ∧ writesNibble .wrVol2 (fun v => ⟨.volume2, v⟩) ∧
    writesNibble .wrVol3 (fun v => ⟨.volume3, v⟩)

/-- R151: ZERO completes and changes nothing: no payload is read, no event is emitted. -/
def Obligations.ZeroFrameHasNoEffect : Prop :=
  ∀ s : State, exec .zero s = .next s

/-- R53, R32: a write to the sink adds one event and sets that register of the shadow state, and no other. -/
def Obligations.SinkWriteAddsOneEvent : Prop :=
  ∀ (s : State) (e : SinkEvent), (s.sinkWrite e).events = s.events ++ [e] ∧
    (s.sinkWrite e).shadow.get e.target = e.value ∧
    (∀ f : Field, f ≠ e.target → (s.sinkWrite e).shadow.get f = s.shadow.get f) ∧
    { s.sinkWrite e with events := s.events, shadow := s.shadow } = s

/-- R146: NEXTNIBBLE answers the low nibble and stays on the byte, then the high nibble and goes to the next byte; outside FRAME the model
stops by name (R201; D9, D19, log entries 10 and 18). -/
def Obligations.NextNibbleAlternates : Prop :=
  (∀ (s : State) (b : Byte), s.artifact.frameTable.read s.bc.toNat = some b →
    (s.parity = .low → nextNibble s = .ok (b.extractLsb' 0 4, { s with parity := .high })) ∧
    (s.parity = .high → s.bc.toNat + 1 < 8192 →
      nextNibble s = .ok (b.extractLsb' 4 4, { s with bc := s.bc + 1, parity := .low }))) ∧
  (∀ s : State, s.artifact.frameTable.read s.bc.toNat = none → nextNibble s = .error (.frameOutOfRange s.bc))

/-- R150: ALIGN steps past a half-read byte and leaves parity low; it reads no memory. -/
def Obligations.AlignEndsOnAByte : Prop :=
  ∀ s : State, (s.parity = .low → align s = .ok s) ∧
    (s.parity = .high → s.bc.toNat + 1 < 8192 → align s = .ok { s with bc := s.bc + 1, parity := .low })

/-- R143 to R149, frame of the field-write operations: one event of the operation's own target; of the rest of the state only the nibble
cursor moves. -/
def Obligations.FieldWriteFrame : Prop :=
  ∀ (i : Instr) (f : Field) (s t : State), i.field? = some f → exec i s = .next t →
    ∃ v : BitVec f.width, t = { s with
      bc := t.bc, parity := t.parity, shadow := s.shadow.set f v, events := s.events ++ [⟨f, v⟩] }

/-- R121 to R124, frame of LIT, BREF and DLY: only cursors, delay and frame offset move; the nibble cursor, the sink and the synthesizer
do not. -/
def Obligations.IndexWordFrame : Prop :=
  ∀ (i : Instr) (s t : State), i.field? = none → exec i s = .next t →
    t = { s with outer := t.outer, inner := t.inner, segmentEnd := t.segmentEnd, delay := t.delay, offset := t.offset }

/-- R54: no instruction changes what any address of either table reads as, or an artifact constant. -/
def Obligations.NoInstructionWritesTheTables : Prop :=
  ∀ (i : Instr) (s t : State), exec i s = .next t →
    (∀ a : Nat, t.artifact.frameTable.read a = s.artifact.frameTable.read a) ∧
    (∀ p : Nat, t.artifact.indexTable.read p = s.artifact.indexTable.read p) ∧
    t.artifact.loopOuter = s.artifact.loopOuter ∧ t.artifact.loopInner = s.artifact.loopInner ∧
    t.artifact.loopSegmentEnd = s.artifact.loopSegmentEnd ∧ t.artifact.streamLength = s.artifact.streamLength

/-- R61, R143, R146, R201 code 2 (D9, D19; log entries 10 and 18): a field-write operation whose first payload byte is outside FRAME stops
with the address, and so does UNPACK where the frame offset itself is. -/
def Obligations.PayloadOutsideTheTableFaults : Prop :=
  (∀ (i : Instr) (f : Field) (s : State), i.field? = some f → s.artifact.frameTable.read s.bc.toNat = none →
    exec i s = .fault (.frameOutOfRange s.bc)) ∧
  (∀ s : State, s.artifact.frameTable.read s.offset.toNat = none →
    unpack s = .fault (.frameOutOfRange (s.offset.setWidth 13)))

/-! ## The frame unpacker and the synthesizer -/

/-- R143, R145, R150: on a frame that lies in the table, UNPACK completes, ends at `offset + FrameLen(h)` with parity low, and changes
nothing but the nibble cursor and the sink. -/
def Obligations.UnpackConsumesExactlyTheFrame : Prop :=
  ∀ (s : State) (h : Byte), s.parity = .low → s.artifact.frameTable.read s.offset.toNat = some h →
    (∀ k, k < frameLen h → (s.artifact.frameTable.read (s.offset.toNat + k)).isSome = true) →
    ∃ t, unpack s = .next t ∧ t.bc.toNat = s.offset.toNat + frameLen h ∧
      t = { s with bc := t.bc, shadow := t.shadow, events := t.events }

/-- R143, R144, R154 (with HDR_BIT of D3, log entry 13): UNPACK emits exactly one event for each set header bit, in field order, and the shadow
registers follow the events. -/
def Obligations.UnpackEmitsOneEventPerSetBit : Prop :=
  ∀ (s t : State) (h : Byte), s.artifact.frameTable.read s.offset.toNat = some h → unpack s = .next t →
    ∃ es : List SinkEvent, t.events = s.events ++ es ∧ t.shadow = s.shadow.apply es ∧
      es.map SinkEvent.target = Field.all.filter fun f => h.getLsbD f.index

/-- R111, the inverse law: unpacking the frame of a change emits exactly the change, in field order, and carries a sink in the old state to
the new one. -/
def Obligations.UnpackInvertsSynth : Prop :=
  ∀ (prev cur : RegState) (s : State), s.parity = .low →
    (∀ (k : Nat) (b : Byte), (synthFrame prev cur)[k]? = some b →
      s.artifact.frameTable.read (s.offset.toNat + k) = some b) →
    ∃ t, unpack s = .next t ∧ t.events = s.events ++ prev.diff cur ∧
      t.bc.toNat = s.offset.toNat + (synthFrame prev cur).length ∧ t.parity = .low ∧
      (s.shadow = prev → t.shadow = cur) ∧ prev.apply (prev.diff cur) = cur

/-- R80, R100, R112: the frame SYNTH returns starts with the header of exactly the changed fields and has the length its header says, 1 to 8
bytes. -/
def Obligations.SynthFrameHasItsHeadersLength : Prop :=
  ∀ prev cur : RegState, ∃ h payload, synthFrame prev cur = h :: payload ∧
    (∀ f : Field, h.getLsbD f.index = decide (cur.get f ≠ prev.get f)) ∧
    (synthFrame prev cur).length = frameLen h ∧ 1 ≤ frameLen h ∧ frameLen h ≤ 8

/-- R112: the frame is a function of the diff alone. -/
def Obligations.EqualDiffsGiveEqualFrames : Prop :=
  ∀ p c p' c' : RegState, p.diff c = p'.diff c' → synthFrame p c = synthFrame p' c'

/-- R103, R104, R105 (pad and high bits by D4, log entry 14): payload bytes hold two nibbles, the earlier one low; an odd last nibble has a
zero above it; a tone is three nibbles, low first. -/
def Obligations.PayloadBytesHoldTwoNibbles : Prop :=
  (∀ (ns : List Nibble) (j : Nat) (lo : Nibble), ns[2 * j]? = some lo →
    (packBytes ns)[j]? = some (ns[2 * j + 1]?.getD 0 ++ lo)) ∧
  (∀ ns : List Nibble, (packBytes ns).length = (ns.length + 1) / 2) ∧
  (∀ v : BitVec 10, ∃ n0 n1 n2 : Nibble, packTone v = [n0, n1, n2] ∧ n0.toNat = v.toNat % 16 ∧
    n1.toNat = v.toNat / 16 % 16 ∧ n2.toNat = v.toNat / 256)

/-- R100, R106, R107: a SYNTH step returns the frame of the change from the old `prev`, copies all of `cur` into `prev`, touches nothing else,
and a second SYNTH of the same state returns the one byte `0x00`. -/
def Obligations.SynthStepUpdatesPrev : Prop :=
  ∀ (s : State) (cur : RegState) (rest : List HostInput), s.inputs = .synth cur :: rest →
    step s = .next { s with prev := cur, frameOut := synthFrame s.prev cur, inputs := rest } ∧
    synthFrame cur cur = [0]

/-! ## The tick -/

/-- R121, R140: in a fetch tick with no segment in flight, the step runs the instruction the word at `outer` decodes to, and then the rest of
the tick: the word at `inner`, its frame, WRAP and DELAY.DEC. -/
def Obligations.StepRunsTheWordAtOuter : Prop :=
  ∀ (s : State) (w : IndexWord), s.nextInput = .tick → s.delay = 0 → s.inner = s.segmentEnd →
    indexRead s s.outer = .ok w →
    step s = andThen (exec (decodeWord w) { s with inputs := s.inputs.tail, events := [] }) playWord

/-- R124, R126, R140: with a segment in flight, the step runs the instruction the word at `inner` decodes to, then its frame, WRAP and
DELAY.DEC. -/
def Obligations.StepRunsTheWordAtInner : Prop :=
  (∀ (s : State) (w : IndexWord), s.nextInput = .tick → s.delay = 0 → s.inner ≠ s.segmentEnd →
    indexRead s s.inner = .ok w → step s = playWord { s with inputs := s.inputs.tail, events := [] }) ∧
  (∀ (t : State) (w : IndexWord), indexRead t t.inner = .ok w →
    playWord t = andThen (exec (decodeWord w) t) fun u => andThen (unpack u) fun v => .next (delayDec (wrap v)))

/-- R89, R143: UNPACK runs the operations the header byte decodes to, one after the other, from the first payload byte on, then ALIGN. -/
def Obligations.UnpackRunsTheHeaderOperations : Prop :=
  (∀ (s : State) (h : Byte), s.artifact.frameTable.read s.offset.toNat = some h →
    unpack s = andThen (runOps (decodeHeader h) { s with bc := s.offset.setWidth 13 + 1 }) fun u => settle (align u)) ∧
  (∀ (i : Instr) (is : List Instr) (s : State), runOps (i :: is) s = andThen (exec i s) (runOps is)) ∧
  (∀ s : State, runOps [] s = .next s)

/-- R128, R141, R152, R153: a tick that starts with a delay left reads nothing, emits nothing, wraps if `outer` is at the end of the stream,
and takes 1 off the delay. -/
def Obligations.IdleTickOnlyWrapsAndCounts : Prop :=
  ∀ s : State, s.nextInput = .tick → s.delay ≠ 0 →
    step s = .next (if s.outer = s.artifact.streamLength then
      { s with
        inputs := s.inputs.tail, events := [], delay := s.delay - 1, outer := s.artifact.loopOuter,
        inner := s.artifact.loopInner, segmentEnd := s.artifact.loopSegmentEnd }
    else { s with inputs := s.inputs.tail, events := [], delay := s.delay - 1 })

/-- R127 (equality by D24, log entry 27): WRAP copies the loop triple into the three cursors at the end of the stream and does nothing
elsewhere. -/
def Obligations.WrapCopiesTheLoopTriple : Prop :=
  ∀ s : State,
    (s.outer = s.artifact.streamLength → wrap s = { s with
      outer := s.artifact.loopOuter, inner := s.artifact.loopInner, segmentEnd := s.artifact.loopSegmentEnd }) ∧
    (s.outer ≠ s.artifact.streamLength → wrap s = s)

/-- R153: DELAY.DEC takes 1 off a delay above 0, leaves 0 at 0, and changes nothing else. -/
def Obligations.DelayDecSaturatesAtZero : Prop :=
  ∀ s : State, (delayDec s).delay.toNat = s.delay.toNat - 1 ∧ { delayDec s with delay := s.delay } = s

/-- R128, R132: the tick that fetches the last compressed word, literal or back-reference, already ends at the loop triple, with the delay
of the word it played less 1. -/
def Obligations.LastWordWrapsInItsFetchTick : Prop :=
  ∀ (s t : State) (w : IndexWord), s.nextInput = .tick → s.delay = 0 → s.inner = s.segmentEnd →
    s.outer.toNat + 1 = s.artifact.wordCount → playedWord s = some w → step s = .next t →
    t.outer = s.artifact.loopOuter ∧ t.inner = s.artifact.loopInner ∧ t.segmentEnd = s.artifact.loopSegmentEnd ∧
      t.delay.toNat = (hi3Of w).toNat

/-- R10, R53, R154: a tick's events have strictly ascending targets, so at most eight; the shadow registers are the old ones with the events
applied. -/
def Obligations.TickEventsAreOrdered : Prop :=
  ∀ s t : State, s.nextInput = .tick → step s = .next t →
    ascendingTargets t.events ∧ t.events.length ≤ 8 ∧ t.shadow = s.shadow.apply t.events

/-- R29, R36: the values `bc` and `offset` hold when a tick starts have no effect on it. -/
def Obligations.TransientCursorsAreNeverRead : Prop :=
  ∀ (s : State) (bc : BitVec 13) (offset : BitVec 12), s.nextInput = .tick →
    sameOutcomeButTransient (step { s with bc := bc, offset := offset }) (step s)

/-- R54: no step, whatever its input, changes the artifact. R31, R106, R221: only a SYNTH or the synthesizer's reset changes `prev`, and only a
SYNTH the output. The inputs and the output are the model's own fields, log entries 2 and 29. -/
def Obligations.NoStepWritesTheArtifact : Prop :=
  ∀ s t : State, step s = .next t → t.artifact = s.artifact ∧ t.inputs = s.inputs.tail ∧
    ((∀ cur, s.nextInput ≠ .synth cur) → t.frameOut = s.frameOut ∧ (s.nextInput ≠ .synthReset → t.prev = s.prev))

/-- R36 (a) and (b) and the canonical form of the tables: what every step keeps, whatever the artifact and the input. -/
def Obligations.EveryStepKeepsTheQuietState : Prop :=
  ∀ s t : State, QuietState s → step s = .next t → QuietState t

/-- R35: reset is quiet. -/
def Obligations.ResetIsQuiet : Prop := QuietState State.reset

/-- R36, R66, R201: on a well-formed artifact (WF1 to WF5) no step faults, and every step keeps the invariant of R36 (with the
clauses of log entry 30). -/
def Obligations.WellFormedArtifactNeverFaults : Prop :=
  ∀ (maxLen : Nat) (s : State), Running maxLen s → ∃ t, step s = .next t ∧ Running maxLen t

/-- R35, R36, R223: a machine booted with a well-formed artifact satisfies the invariant of R36 (with the clauses of log entry 30). -/
def Obligations.BootOfWellFormedArtifactIsRunning : Prop :=
  ∀ (maxLen : Nat) (a : Artifact), a.wfDefined maxLen = true → Running maxLen (State.boot a)

/-- R157: from every running state at most 7 idle ticks pass before the next fetch. -/
def Obligations.AtMostSevenIdleTicks : Prop :=
  ∀ (maxLen : Nat) (s : State), Running maxLen s → s.inputs = [] →
    ∃ k t, k ≤ 7 ∧ runFor k s = .next t ∧ t.delay = 0

/-- R141: a word of delay `d` is fetched in one tick and followed by `d - 1` idle ticks, which emit nothing; then the next fetch is due. -/
def Obligations.AWordOccupiesItsDelay : Prop :=
  ∀ (s t : State) (w : IndexWord), s.inputs = [] → playedWord s = some w → step s = .next t →
    ∀ k, k < ticksOf w → ∃ u, runFor k t = .next u ∧ u.delay.toNat + k + 1 = ticksOf w ∧
      (0 < k → u.events = [])

/-! ## Reset and boot -/

/-- R35: the state after reset, with any artifact in place; the artifact and its constants are held, not reset. -/
def Obligations.ResetValues : Prop :=
  ∀ a : Artifact, (State.boot a).outer = 0 ∧ (State.boot a).inner = 0 ∧ (State.boot a).segmentEnd = 0 ∧
    (State.boot a).delay = 0 ∧ (State.boot a).parity = .low ∧ (State.boot a).prev = RegState.zero ∧
    (State.boot a).shadow = RegState.zero ∧ (State.boot a).artifact = a ∧
    { State.boot a with artifact := State.reset.artifact } = State.reset

/-- R220, R221 (D14; log entries 6 and 28): re-asserted, the decoder's reset restores R35's values, keeps the artifact and the synthesizer's
state; the synthesizer's reset only zeroes `prev`. That the observation (`shadow`, `events`) starts anew is the model's choice, log entry 6. -/
def Obligations.ResetInputsRestoreResetValues : Prop :=
  ∀ (s : State) (rest : List HostInput),
    (s.inputs = .reset :: rest → step s = .next { State.boot s.artifact with
      prev := s.prev, frameOut := s.frameOut, inputs := rest }) ∧
    (s.inputs = .synthReset :: rest → step s = .next { s with prev := RegState.zero, inputs := rest })

/-- R222 (for a stream of at least two words; the one word of a one-word stream wraps in the same tick, R128): the first tick plays the word at
position 0. -/
def Obligations.FirstTickPlaysPositionZero : Prop :=
  ∀ (maxLen : Nat) (a : Artifact), a.wfDefined maxLen = true → 2 ≤ a.wordCount →
    ∃ w t, a.indexTable.read 0 = some w ∧ w.getLsbD 15 = false ∧ step (State.boot a) = .next t ∧
      t.outer = 1 ∧ t.inner = 1 ∧ t.segmentEnd = 1 ∧ t.delay.toNat = (hi3Of w).toNat

/-! ## The whole stream -/

/-- R130, R141: on a well-formed artifact whose last word is a literal, the first pass plays exactly the expansion of the stream, each word
once, in order, each starting when the delays of the words before it have passed, and nothing in any other tick. The tick of the last word is
the first in which WRAP finds `outer = stream_length`; when the pass is over the decoder stands at the loop point. -/
def Obligations.FirstPassPlaysTheExpansion : Prop :=
  ∀ (maxLen : Nat) (a : Artifact), a.wfDefined maxLen = true → a.wf7 = true →
    playsExactly (expand a.words) (State.boot a) ∧
    (∀ n, n ≤ totalTicks (expand a.words).dropLast →
      ∃ s u, runFor n (State.boot a) = .next s ∧ beforeWrap s = .next u ∧ step s = .next (finishTick u) ∧
        (u.outer = a.streamLength ↔ n = totalTicks (expand a.words).dropLast)) ∧
    ∃ t, runFor (totalTicks (expand a.words)) (State.boot a) = .next t ∧ atLoopPoint a t

/-- R130, R177 to R186: compression is lossless. -/
def Obligations.CompressionIsLossless : Prop :=
  ∀ (maxLen : Nat) (u c : List IndexWord) (loopOffset : Nat) (t : LoopTriple),
    compress maxLen u loopOffset = .ok (c, t) → expand c = u

/-- R133, R181 to R183: the loop triple stands for the loop offset: the rest of its segment, then the expansion of the words from `loop_outer`
on, is the uncompressed stream from the loop offset on. And on an artifact with WF1 to WF7 (without WF7 the decoder plays other words, R131,
R132) a decoder at the loop point plays exactly the words the triple stands for and comes back to the loop point, so it does for ever. -/
def Obligations.LoopTripleStandsForTheLoopOffset : Prop :=
  (∀ (maxLen : Nat) (u c : List IndexWord) (loopOffset : Nat) (t : LoopTriple),
    compress maxLen u loopOffset = .ok (c, t) →
    t.inner < t.segmentEnd ∧ t.segmentEnd ≤ t.outer ∧ t.outer ≤ c.length ∧
    (c.drop t.inner).take (t.segmentEnd - t.inner) ++ (c.drop t.outer).flatMap (expandWord c) = u.drop loopOffset) ∧
  (∀ (maxLen : Nat) (a : Artifact) (s : State), a.wf maxLen = true → atLoopPoint a s →
    playsExactly a.loopWords s ∧ ∃ t, runFor (totalTicks a.loopWords) s = .next t ∧ atLoopPoint a t)

/-- R178, with the cap of R179 and the limit on starts that the spec chooses in R184 (the model applies it for every STREAM_LEN_MAX, log entry
24): MATCH answers the longest run, at most 9 words, and the lowest start among the
longest. -/
def Obligations.MatchIsTheFirstLongestRun : Prop :=
  ∀ out rest : List IndexWord,
    (matchRun out rest).1 ≤ 9 ∧
    (∀ s, s < out.length → s < 4096 → runLength 9 (out.drop s) rest ≤ (matchRun out rest).1) ∧
    (0 < (matchRun out rest).1 → (matchRun out rest).2 < out.length ∧ (matchRun out rest).2 < 4096 ∧
      runLength 9 (out.drop (matchRun out rest).2) rest = (matchRun out rest).1 ∧
      ∀ s, s < (matchRun out rest).2 → runLength 9 (out.drop s) rest < (matchRun out rest).1)

/-- R177: a run's length is how many words two streams agree in, cut at the cap. -/
def Obligations.RunLengthIsTheCommonPrefix : Prop :=
  ∀ (cap : Nat) (xs ys : List IndexWord),
    runLength cap xs ys ≤ cap ∧ runLength cap xs ys ≤ xs.length ∧ runLength cap xs ys ≤ ys.length ∧
    xs.take (runLength cap xs ys) = ys.take (runLength cap xs ys) ∧
    (runLength cap xs ys < cap → ∀ x y, xs[runLength cap xs ys]? = some x → ys[runLength cap xs ys]? = some y → x ≠ y)

/-- R175, R176: EMIT's words are literals whose delays sum to the delay asked for; all but the last stand for 8 ticks, and the last for 1 to
8; the first carries the frame offset, the others offset 0; there are `ceil(d / 8)` of them, so one where `d ≤ 8`. -/
def Obligations.EmitChainSumsToTheDelay : Prop :=
  ∀ (off : BitVec 12) (d : Nat), 1 ≤ d →
    ∃ w ws, emit off d = .ok (w :: ws) ∧ totalTicks (w :: ws) = d ∧ lo12Of w = off ∧
      (∀ x ∈ ws, lo12Of x = 0) ∧ (∀ x ∈ w :: ws, x.getLsbD 15 = false ∧ 1 ≤ ticksOf x ∧ ticksOf x ≤ 8) ∧
      (∀ x ∈ (w :: ws).dropLast, ticksOf x = 8) ∧ (w :: ws).length = (d + 7) / 8

/-- R172, R174, R186: from a dictionary whose entries lie in its table, INTERN answers an offset where the frame stands, keeps every frame
already there, keeps the 4096-byte limit and the entries in the table, and answers the same offset, storing nothing, whenever the same bytes
come again, whatever frames are interned in between. -/
def Obligations.InternGivesEqualFramesOneOffset : Prop :=
  ∀ (d d' : Dictionary) (bytes : List Byte) (o : Nat),
    d.entriesFit → d.frameTable.length ≤ 4096 → intern bytes d = .ok (o, d') →
    (d'.frameTable.drop o).take bytes.length = bytes ∧ d.frameTable <+: d'.frameTable ∧ d'.frameTable.length ≤ 4096 ∧
      d'.entriesFit ∧
      ∀ (frames : List (List Byte)) (d'' : Dictionary), internAll frames d' = .ok d'' → intern bytes d'' = .ok (o, d'')

/-- R185: an artifact BUILD makes satisfies WF1 to WF6. (STREAM_LEN_MAX is 4096 or 32768, D11, log entry 17.) -/
def Obligations.BuiltArtifactsAreWellFormed : Prop :=
  ∀ (maxLen : Nat) (steps : List BuildStep) (loopOffset : Option Nat) (a : Artifact), maxLen ≤ 32768 →
    build maxLen steps loopOffset = .ok a → a.wfDefined maxLen = true ∧ a.wf6 = true
end

