-- ==== Sys2Proof/Laws/Memory.lean ====
section
/-! SUPPORT. The tables: read after write, the canonical form, tables made from flat lists. -/

namespace Sys2Proof.Machine

variable {w : Nat}

/-! ## Reading and writing -/

theorem Memory.read_write_self (m : Memory w) (p : Nat) (v : BitVec w) : (m.write p v).read p = some v := by
  induction m with
  | nil => simp [Memory.write, Memory.read]
  | cons c m ih =>
    obtain ⟨a, x⟩ := c
    simp only [Memory.write]
    split
    · simp [Memory.read]
    · split
      · simp_all [Memory.read]
      · simp_all [Memory.read, eq_comm]

theorem Memory.read_write_other (m : Memory w) {p q : Nat} (v : BitVec w) (h : q ≠ p) :
    (m.write p v).read q = m.read q := by
  induction m with
  | nil => simp [Memory.write, Memory.read, h.symm]
  | cons c m ih =>
    obtain ⟨a, x⟩ := c
    simp only [Memory.write]
    split
    · simp [Memory.read, h.symm]
    · split
      · next hp => subst hp; simp [Memory.read, h.symm]
      · simp only [Memory.read, ih]

/-! ## The canonical form -/

theorem Memory.wfFrom_mono {lo lo' : Nat} {m : Memory w} (h : Memory.wfFrom lo' m = true) (hle : lo ≤ lo') :
    Memory.wfFrom lo m = true := by
  cases m with
  | nil => rfl
  | cons c m =>
    simp only [Memory.wfFrom, Bool.and_eq_true, decide_eq_true_eq] at h ⊢
    exact ⟨by omega, h.2⟩

theorem Memory.write_wfFrom {lo : Nat} {m : Memory w} (p : Nat) (v : BitVec w) (h : Memory.wfFrom lo m = true) (hp : lo ≤ p) :
    Memory.wfFrom lo (m.write p v) = true := by
  induction m generalizing lo with
  | nil => simp [Memory.write, Memory.wfFrom, hp]
  | cons c m ih =>
    obtain ⟨a, x⟩ := c
    simp only [Memory.wfFrom, Bool.and_eq_true, decide_eq_true_eq] at h
    simp only [Memory.write]
    split
    · simp only [Memory.wfFrom, Bool.and_eq_true, decide_eq_true_eq]
      exact ⟨hp, by omega, h.2⟩
    · split
      · simp only [Memory.wfFrom, Bool.and_eq_true, decide_eq_true_eq]
        exact h
      · simp only [Memory.wfFrom, Bool.and_eq_true, decide_eq_true_eq]
        exact ⟨h.1, ih h.2 (by omega)⟩

/-- A write keeps the canonical form. -/
theorem Memory.write_wf {m : Memory w} (p : Nat) (v : BitVec w) (h : m.wf = true) : (m.write p v).wf = true :=
  Memory.write_wfFrom p v h (Nat.zero_le p)

/-- Loading cells keeps the canonical form. -/
theorem Memory.writeAll_wf {m : Memory w} (cells : List (Nat × BitVec w)) (h : m.wf = true) :
    (m.writeAll cells).wf = true := by
  induction cells generalizing m with
  | nil => exact h
  | cons c cs ih => exact ih (Memory.write_wf c.1 c.2 h)

theorem Memory.ofListFrom_wfFrom (a : Nat) (vs : List (BitVec w)) : Memory.wfFrom a (Memory.ofListFrom a vs) = true := by
  induction vs generalizing a with
  | nil => rfl
  | cons v vs ih => simp [Memory.ofListFrom, Memory.wfFrom, ih]

/-- A flat table is in the canonical form. -/
theorem Memory.ofList_wf (vs : List (BitVec w)) : (Memory.ofList vs).wf = true := Memory.ofListFrom_wfFrom 0 vs

/-- The tables at reset are in the canonical form. -/
theorem reset_tables_wf : State.reset.artifact.frameTable.wf = true ∧ State.reset.artifact.indexTable.wf = true :=
  ⟨rfl, rfl⟩

/-! ## Tables without holes -/

theorem Memory.ofListFrom_keys (a : Nat) (vs : List (BitVec w)) :
    (Memory.ofListFrom a vs).map Prod.fst = List.range' a vs.length := by
  induction vs generalizing a with
  | nil => rfl
  | cons v vs ih => simp [Memory.ofListFrom, List.range', ih]

theorem Memory.ofListFrom_values (a : Nat) (vs : List (BitVec w)) : (Memory.ofListFrom a vs).map Prod.snd = vs := by
  induction vs generalizing a with
  | nil => rfl
  | cons v vs ih => simp [Memory.ofListFrom, ih]

theorem Memory.ofList_values (vs : List (BitVec w)) : (Memory.ofList vs).map Prod.snd = vs := Memory.ofListFrom_values 0 vs

theorem Memory.ofList_length (vs : List (BitVec w)) : (Memory.ofList vs).length = vs.length := by
  simpa using congrArg List.length (Memory.ofList_values vs)

/-- A flat table has no holes. -/
theorem Memory.ofList_dense (vs : List (BitVec w)) : (Memory.ofList vs).dense = true := by
  rw [Memory.dense, decide_eq_true_eq, Memory.ofList_length, Memory.ofList, Memory.ofListFrom_keys, List.range_eq_range']

theorem Memory.read_of_keys {m : Memory w} {a : Nat} (h : m.map Prod.fst = List.range' a m.length) (k : Nat) :
    m.read (a + k) = (m.map Prod.snd)[k]? := by
  induction m generalizing a k with
  | nil => rfl
  | cons c m ih =>
    obtain ⟨b, x⟩ := c
    simp only [List.map_cons, List.length_cons, List.range'_succ, List.cons.injEq] at h
    obtain ⟨rfl, h⟩ := h
    cases k with
    | zero => simp [Memory.read]
    | succ k =>
      have := ih h k
      simp only [Memory.read, List.map_cons, List.getElem?_cons_succ]
      rw [if_neg (by omega), ← this, Nat.add_right_comm, Nat.add_assoc]

/-- A table without holes reads as the list of its values (R51, R52). -/
theorem Memory.read_of_dense {m : Memory w} (h : m.dense = true) (p : Nat) : m.read p = (m.map Prod.snd)[p]? := by
  rw [Memory.dense, decide_eq_true_eq, List.range_eq_range'] at h
  simpa using Memory.read_of_keys h p

/-- A table without holes has a value at exactly the addresses below its length. -/
theorem Memory.read_isSome_of_dense {m : Memory w} (h : m.dense = true) (p : Nat) : (m.read p).isSome = true ↔ p < m.length := by
  simp [Memory.read_of_dense h]

/-- A flat table reads as the list it was made from. -/
theorem Memory.read_ofList (vs : List (BitVec w)) (p : Nat) : (Memory.ofList vs).read p = vs[p]? := by
  rw [Memory.read_of_dense (Memory.ofList_dense vs), Memory.ofList_values]

end Sys2Proof.Machine
end

