-- ==== Sys2Proof/Laws/Decode.lean ====
section
/-! SUPPORT. The fields of encoded index words, and the round trip of their encodings. -/

namespace Sys2Proof

/-- A word of INDEX by its three fields (R71, R72). -/
def wordOf (b : BitVec 1) (x : BitVec 3) (y : BitVec 12) : IndexWord := b ++ x ++ y

theorem literalWord_eq (dly : BitVec 3) (off : BitVec 12) : literalWord dly off = wordOf 0 dly off := rfl
theorem backrefWord_eq (len : BitVec 3) (start : BitVec 12) : backrefWord len start = wordOf 1 len start := rfl

theorem wordOf_getLsbD (b : BitVec 1) (x : BitVec 3) (y : BitVec 12) (i : Nat) :
    (wordOf b x y).getLsbD i = if i < 12 then y.getLsbD i else if i - 12 < 3 then x.getLsbD (i - 12) else b.getLsbD (i - 12 - 3) := by
  show (b ++ x ++ y).getLsbD i = _
  rw [BitVec.getLsbD_append, BitVec.getLsbD_append]

@[simp] theorem lo12Of_wordOf (b : BitVec 1) (x : BitVec 3) (y : BitVec 12) : lo12Of (wordOf b x y) = y := by
  apply BitVec.eq_of_getLsbD_eq
  intro i hi
  rw [lo12Of, BitVec.getLsbD_extractLsb', wordOf_getLsbD]
  simp [hi]

@[simp] theorem hi3Of_wordOf (b : BitVec 1) (x : BitVec 3) (y : BitVec 12) : hi3Of (wordOf b x y) = x := by
  apply BitVec.eq_of_getLsbD_eq
  intro i hi
  rw [hi3Of, BitVec.getLsbD_extractLsb', wordOf_getLsbD, if_neg (by omega), if_pos (by omega)]
  simp [hi]

@[simp] theorem flagOf_wordOf (b : BitVec 1) (x : BitVec 3) (y : BitVec 12) : flagOf (wordOf b x y) = b.getLsbD 0 := by
  rw [flagOf, wordOf_getLsbD]; rfl

/-- A word is its three fields (R120). -/
theorem wordOf_fields (w : IndexWord) : wordOf (BitVec.ofBool (flagOf w)) (hi3Of w) (lo12Of w) = w := by
  apply BitVec.eq_of_getLsbD_eq
  intro i hi
  rw [wordOf_getLsbD]
  split
  · simp [lo12Of, *]
  · split
    · rw [hi3Of, BitVec.getLsbD_extractLsb', Nat.add_sub_cancel' (by omega)]; simp [*]
    · have h15 : i = 15 := by omega
      subst h15; simp [flagOf]

@[simp] theorem flagOf_literalWord (d : BitVec 3) (o : BitVec 12) : flagOf (literalWord d o) = false := by
  rw [literalWord_eq, flagOf_wordOf]; rfl
@[simp] theorem hi3Of_literalWord (d : BitVec 3) (o : BitVec 12) : hi3Of (literalWord d o) = d := by
  rw [literalWord_eq, hi3Of_wordOf]
@[simp] theorem lo12Of_literalWord (d : BitVec 3) (o : BitVec 12) : lo12Of (literalWord d o) = o := by
  rw [literalWord_eq, lo12Of_wordOf]
@[simp] theorem flagOf_backrefWord (d : BitVec 3) (o : BitVec 12) : flagOf (backrefWord d o) = true := by
  rw [backrefWord_eq, flagOf_wordOf]; rfl
@[simp] theorem hi3Of_backrefWord (d : BitVec 3) (o : BitVec 12) : hi3Of (backrefWord d o) = d := by
  rw [backrefWord_eq, hi3Of_wordOf]
@[simp] theorem lo12Of_backrefWord (d : BitVec 3) (o : BitVec 12) : lo12Of (backrefWord d o) = o := by
  rw [backrefWord_eq, lo12Of_wordOf]

/-- A word with bit 15 clear is the literal of its fields (R71). -/
theorem literalWord_fields {w : IndexWord} (h : flagOf w = false) : literalWord (hi3Of w) (lo12Of w) = w := by
  have := wordOf_fields w
  rwa [h] at this

/-- A word with bit 15 set is the back-reference of its fields (R72). -/
theorem backrefWord_fields {w : IndexWord} (h : flagOf w = true) : backrefWord (hi3Of w) (lo12Of w) = w := by
  have := wordOf_fields w
  rwa [h] at this

end Sys2Proof
end

