-- ==== Sys2Proof/Laws/State.lean ====
section
/-! SUPPORT. What each named update of the state leaves in each field. -/

namespace Sys2Proof.Machine

variable (s : State)

@[simp] theorem State.setCursors_outer (a b c : BitVec 16) : (s.setCursors a b c).outer = a := rfl
@[simp] theorem State.setCursors_inner (a b c : BitVec 16) : (s.setCursors a b c).inner = b := rfl
@[simp] theorem State.setCursors_segmentEnd (a b c : BitVec 16) : (s.setCursors a b c).segmentEnd = c := rfl
@[simp] theorem State.setCursors_delay (a b c : BitVec 16) : (s.setCursors a b c).delay = s.delay := rfl
@[simp] theorem State.setCursors_parity (a b c : BitVec 16) : (s.setCursors a b c).parity = s.parity := rfl
@[simp] theorem State.setCursors_bc (a b c : BitVec 16) : (s.setCursors a b c).bc = s.bc := rfl
@[simp] theorem State.setCursors_offset (a b c : BitVec 16) : (s.setCursors a b c).offset = s.offset := rfl
@[simp] theorem State.setCursors_artifact (a b c : BitVec 16) : (s.setCursors a b c).artifact = s.artifact := rfl
@[simp] theorem State.setCursors_prev (a b c : BitVec 16) : (s.setCursors a b c).prev = s.prev := rfl
@[simp] theorem State.setCursors_frameOut (a b c : BitVec 16) : (s.setCursors a b c).frameOut = s.frameOut := rfl
@[simp] theorem State.setCursors_shadow (a b c : BitVec 16) : (s.setCursors a b c).shadow = s.shadow := rfl
@[simp] theorem State.setCursors_events (a b c : BitVec 16) : (s.setCursors a b c).events = s.events := rfl
@[simp] theorem State.setCursors_inputs (a b c : BitVec 16) : (s.setCursors a b c).inputs = s.inputs := rfl

@[simp] theorem State.setPlay_outer (a : BitVec 16) (d : BitVec 4) (o : BitVec 12) : (s.setPlay a d o).outer = s.outer := rfl
@[simp] theorem State.setPlay_inner (a : BitVec 16) (d : BitVec 4) (o : BitVec 12) : (s.setPlay a d o).inner = a := rfl
@[simp] theorem State.setPlay_segmentEnd (a : BitVec 16) (d : BitVec 4) (o : BitVec 12) : (s.setPlay a d o).segmentEnd = s.segmentEnd := rfl
@[simp] theorem State.setPlay_delay (a : BitVec 16) (d : BitVec 4) (o : BitVec 12) : (s.setPlay a d o).delay = d := rfl
@[simp] theorem State.setPlay_parity (a : BitVec 16) (d : BitVec 4) (o : BitVec 12) : (s.setPlay a d o).parity = s.parity := rfl
@[simp] theorem State.setPlay_bc (a : BitVec 16) (d : BitVec 4) (o : BitVec 12) : (s.setPlay a d o).bc = s.bc := rfl
@[simp] theorem State.setPlay_offset (a : BitVec 16) (d : BitVec 4) (o : BitVec 12) : (s.setPlay a d o).offset = o := rfl
@[simp] theorem State.setPlay_artifact (a : BitVec 16) (d : BitVec 4) (o : BitVec 12) : (s.setPlay a d o).artifact = s.artifact := rfl
@[simp] theorem State.setPlay_prev (a : BitVec 16) (d : BitVec 4) (o : BitVec 12) : (s.setPlay a d o).prev = s.prev := rfl
@[simp] theorem State.setPlay_frameOut (a : BitVec 16) (d : BitVec 4) (o : BitVec 12) : (s.setPlay a d o).frameOut = s.frameOut := rfl
@[simp] theorem State.setPlay_shadow (a : BitVec 16) (d : BitVec 4) (o : BitVec 12) : (s.setPlay a d o).shadow = s.shadow := rfl
@[simp] theorem State.setPlay_events (a : BitVec 16) (d : BitVec 4) (o : BitVec 12) : (s.setPlay a d o).events = s.events := rfl
@[simp] theorem State.setPlay_inputs (a : BitVec 16) (d : BitVec 4) (o : BitVec 12) : (s.setPlay a d o).inputs = s.inputs := rfl

@[simp] theorem State.setBc_outer (x : BitVec 13) : (s.setBc x).outer = s.outer := rfl
@[simp] theorem State.setBc_inner (x : BitVec 13) : (s.setBc x).inner = s.inner := rfl
@[simp] theorem State.setBc_segmentEnd (x : BitVec 13) : (s.setBc x).segmentEnd = s.segmentEnd := rfl
@[simp] theorem State.setBc_delay (x : BitVec 13) : (s.setBc x).delay = s.delay := rfl
@[simp] theorem State.setBc_parity (x : BitVec 13) : (s.setBc x).parity = s.parity := rfl
@[simp] theorem State.setBc_bc (x : BitVec 13) : (s.setBc x).bc = x := rfl
@[simp] theorem State.setBc_offset (x : BitVec 13) : (s.setBc x).offset = s.offset := rfl
@[simp] theorem State.setBc_artifact (x : BitVec 13) : (s.setBc x).artifact = s.artifact := rfl
@[simp] theorem State.setBc_prev (x : BitVec 13) : (s.setBc x).prev = s.prev := rfl
@[simp] theorem State.setBc_frameOut (x : BitVec 13) : (s.setBc x).frameOut = s.frameOut := rfl
@[simp] theorem State.setBc_shadow (x : BitVec 13) : (s.setBc x).shadow = s.shadow := rfl
@[simp] theorem State.setBc_events (x : BitVec 13) : (s.setBc x).events = s.events := rfl
@[simp] theorem State.setBc_inputs (x : BitVec 13) : (s.setBc x).inputs = s.inputs := rfl

@[simp] theorem State.setParity_outer (p : Parity) : (s.setParity p).outer = s.outer := rfl
@[simp] theorem State.setParity_inner (p : Parity) : (s.setParity p).inner = s.inner := rfl
@[simp] theorem State.setParity_segmentEnd (p : Parity) : (s.setParity p).segmentEnd = s.segmentEnd := rfl
@[simp] theorem State.setParity_delay (p : Parity) : (s.setParity p).delay = s.delay := rfl
@[simp] theorem State.setParity_parity (p : Parity) : (s.setParity p).parity = p := rfl
@[simp] theorem State.setParity_bc (p : Parity) : (s.setParity p).bc = s.bc := rfl
@[simp] theorem State.setParity_offset (p : Parity) : (s.setParity p).offset = s.offset := rfl
@[simp] theorem State.setParity_artifact (p : Parity) : (s.setParity p).artifact = s.artifact := rfl
@[simp] theorem State.setParity_prev (p : Parity) : (s.setParity p).prev = s.prev := rfl
@[simp] theorem State.setParity_frameOut (p : Parity) : (s.setParity p).frameOut = s.frameOut := rfl
@[simp] theorem State.setParity_shadow (p : Parity) : (s.setParity p).shadow = s.shadow := rfl
@[simp] theorem State.setParity_events (p : Parity) : (s.setParity p).events = s.events := rfl
@[simp] theorem State.setParity_inputs (p : Parity) : (s.setParity p).inputs = s.inputs := rfl

@[simp] theorem State.setDelay_outer (d : BitVec 4) : (s.setDelay d).outer = s.outer := rfl
@[simp] theorem State.setDelay_inner (d : BitVec 4) : (s.setDelay d).inner = s.inner := rfl
@[simp] theorem State.setDelay_segmentEnd (d : BitVec 4) : (s.setDelay d).segmentEnd = s.segmentEnd := rfl
@[simp] theorem State.setDelay_delay (d : BitVec 4) : (s.setDelay d).delay = d := rfl
@[simp] theorem State.setDelay_parity (d : BitVec 4) : (s.setDelay d).parity = s.parity := rfl
@[simp] theorem State.setDelay_bc (d : BitVec 4) : (s.setDelay d).bc = s.bc := rfl
@[simp] theorem State.setDelay_offset (d : BitVec 4) : (s.setDelay d).offset = s.offset := rfl
@[simp] theorem State.setDelay_artifact (d : BitVec 4) : (s.setDelay d).artifact = s.artifact := rfl
@[simp] theorem State.setDelay_prev (d : BitVec 4) : (s.setDelay d).prev = s.prev := rfl
@[simp] theorem State.setDelay_frameOut (d : BitVec 4) : (s.setDelay d).frameOut = s.frameOut := rfl
@[simp] theorem State.setDelay_shadow (d : BitVec 4) : (s.setDelay d).shadow = s.shadow := rfl
@[simp] theorem State.setDelay_events (d : BitVec 4) : (s.setDelay d).events = s.events := rfl
@[simp] theorem State.setDelay_inputs (d : BitVec 4) : (s.setDelay d).inputs = s.inputs := rfl

@[simp] theorem State.sinkWrite_outer (e : SinkEvent) : (s.sinkWrite e).outer = s.outer := rfl
@[simp] theorem State.sinkWrite_inner (e : SinkEvent) : (s.sinkWrite e).inner = s.inner := rfl
@[simp] theorem State.sinkWrite_segmentEnd (e : SinkEvent) : (s.sinkWrite e).segmentEnd = s.segmentEnd := rfl
@[simp] theorem State.sinkWrite_delay (e : SinkEvent) : (s.sinkWrite e).delay = s.delay := rfl
@[simp] theorem State.sinkWrite_parity (e : SinkEvent) : (s.sinkWrite e).parity = s.parity := rfl
@[simp] theorem State.sinkWrite_bc (e : SinkEvent) : (s.sinkWrite e).bc = s.bc := rfl
@[simp] theorem State.sinkWrite_offset (e : SinkEvent) : (s.sinkWrite e).offset = s.offset := rfl
@[simp] theorem State.sinkWrite_artifact (e : SinkEvent) : (s.sinkWrite e).artifact = s.artifact := rfl
@[simp] theorem State.sinkWrite_prev (e : SinkEvent) : (s.sinkWrite e).prev = s.prev := rfl
@[simp] theorem State.sinkWrite_frameOut (e : SinkEvent) : (s.sinkWrite e).frameOut = s.frameOut := rfl
@[simp] theorem State.sinkWrite_shadow (e : SinkEvent) : (s.sinkWrite e).shadow = s.shadow.set e.target e.value := rfl
@[simp] theorem State.sinkWrite_events (e : SinkEvent) : (s.sinkWrite e).events = s.events ++ [e] := rfl
@[simp] theorem State.sinkWrite_inputs (e : SinkEvent) : (s.sinkWrite e).inputs = s.inputs := rfl

@[simp] theorem State.clearEvents_outer : (s.clearEvents).outer = s.outer := rfl
@[simp] theorem State.clearEvents_inner : (s.clearEvents).inner = s.inner := rfl
@[simp] theorem State.clearEvents_segmentEnd : (s.clearEvents).segmentEnd = s.segmentEnd := rfl
@[simp] theorem State.clearEvents_delay : (s.clearEvents).delay = s.delay := rfl
@[simp] theorem State.clearEvents_parity : (s.clearEvents).parity = s.parity := rfl
@[simp] theorem State.clearEvents_bc : (s.clearEvents).bc = s.bc := rfl
@[simp] theorem State.clearEvents_offset : (s.clearEvents).offset = s.offset := rfl
@[simp] theorem State.clearEvents_artifact : (s.clearEvents).artifact = s.artifact := rfl
@[simp] theorem State.clearEvents_prev : (s.clearEvents).prev = s.prev := rfl
@[simp] theorem State.clearEvents_frameOut : (s.clearEvents).frameOut = s.frameOut := rfl
@[simp] theorem State.clearEvents_shadow : (s.clearEvents).shadow = s.shadow := rfl
@[simp] theorem State.clearEvents_events : (s.clearEvents).events = [] := rfl
@[simp] theorem State.clearEvents_inputs : (s.clearEvents).inputs = s.inputs := rfl

@[simp] theorem State.popInput_outer : (s.popInput).outer = s.outer := rfl
@[simp] theorem State.popInput_inner : (s.popInput).inner = s.inner := rfl
@[simp] theorem State.popInput_segmentEnd : (s.popInput).segmentEnd = s.segmentEnd := rfl
@[simp] theorem State.popInput_delay : (s.popInput).delay = s.delay := rfl
@[simp] theorem State.popInput_parity : (s.popInput).parity = s.parity := rfl
@[simp] theorem State.popInput_bc : (s.popInput).bc = s.bc := rfl
@[simp] theorem State.popInput_offset : (s.popInput).offset = s.offset := rfl
@[simp] theorem State.popInput_artifact : (s.popInput).artifact = s.artifact := rfl
@[simp] theorem State.popInput_prev : (s.popInput).prev = s.prev := rfl
@[simp] theorem State.popInput_frameOut : (s.popInput).frameOut = s.frameOut := rfl
@[simp] theorem State.popInput_shadow : (s.popInput).shadow = s.shadow := rfl
@[simp] theorem State.popInput_events : (s.popInput).events = s.events := rfl
@[simp] theorem State.popInput_inputs : (s.popInput).inputs = s.inputs.tail := rfl

@[simp] theorem State.setSynth_outer (r : RegState) (f : List Byte) : (s.setSynth r f).outer = s.outer := rfl
@[simp] theorem State.setSynth_inner (r : RegState) (f : List Byte) : (s.setSynth r f).inner = s.inner := rfl
@[simp] theorem State.setSynth_segmentEnd (r : RegState) (f : List Byte) : (s.setSynth r f).segmentEnd = s.segmentEnd := rfl
@[simp] theorem State.setSynth_delay (r : RegState) (f : List Byte) : (s.setSynth r f).delay = s.delay := rfl
@[simp] theorem State.setSynth_parity (r : RegState) (f : List Byte) : (s.setSynth r f).parity = s.parity := rfl
@[simp] theorem State.setSynth_bc (r : RegState) (f : List Byte) : (s.setSynth r f).bc = s.bc := rfl
@[simp] theorem State.setSynth_offset (r : RegState) (f : List Byte) : (s.setSynth r f).offset = s.offset := rfl
@[simp] theorem State.setSynth_artifact (r : RegState) (f : List Byte) : (s.setSynth r f).artifact = s.artifact := rfl
@[simp] theorem State.setSynth_prev (r : RegState) (f : List Byte) : (s.setSynth r f).prev = r := rfl
@[simp] theorem State.setSynth_frameOut (r : RegState) (f : List Byte) : (s.setSynth r f).frameOut = f := rfl
@[simp] theorem State.setSynth_shadow (r : RegState) (f : List Byte) : (s.setSynth r f).shadow = s.shadow := rfl
@[simp] theorem State.setSynth_events (r : RegState) (f : List Byte) : (s.setSynth r f).events = s.events := rfl
@[simp] theorem State.setSynth_inputs (r : RegState) (f : List Byte) : (s.setSynth r f).inputs = s.inputs := rfl

@[simp] theorem resetDecoder_outer : (resetDecoder s).outer = 0 := rfl
@[simp] theorem resetDecoder_inner : (resetDecoder s).inner = 0 := rfl
@[simp] theorem resetDecoder_segmentEnd : (resetDecoder s).segmentEnd = 0 := rfl
@[simp] theorem resetDecoder_delay : (resetDecoder s).delay = 0 := rfl
@[simp] theorem resetDecoder_parity : (resetDecoder s).parity = .low := rfl
@[simp] theorem resetDecoder_bc : (resetDecoder s).bc = 0 := rfl
@[simp] theorem resetDecoder_offset : (resetDecoder s).offset = 0 := rfl
@[simp] theorem resetDecoder_artifact : (resetDecoder s).artifact = s.artifact := rfl
@[simp] theorem resetDecoder_prev : (resetDecoder s).prev = s.prev := rfl
@[simp] theorem resetDecoder_frameOut : (resetDecoder s).frameOut = s.frameOut := rfl
@[simp] theorem resetDecoder_shadow : (resetDecoder s).shadow = .zero := rfl
@[simp] theorem resetDecoder_events : (resetDecoder s).events = [] := rfl
@[simp] theorem resetDecoder_inputs : (resetDecoder s).inputs = s.inputs := rfl

@[simp] theorem resetSynth_outer : (resetSynth s).outer = s.outer := rfl
@[simp] theorem resetSynth_inner : (resetSynth s).inner = s.inner := rfl
@[simp] theorem resetSynth_segmentEnd : (resetSynth s).segmentEnd = s.segmentEnd := rfl
@[simp] theorem resetSynth_delay : (resetSynth s).delay = s.delay := rfl
@[simp] theorem resetSynth_parity : (resetSynth s).parity = s.parity := rfl
@[simp] theorem resetSynth_bc : (resetSynth s).bc = s.bc := rfl
@[simp] theorem resetSynth_offset : (resetSynth s).offset = s.offset := rfl
@[simp] theorem resetSynth_artifact : (resetSynth s).artifact = s.artifact := rfl
@[simp] theorem resetSynth_prev : (resetSynth s).prev = .zero := rfl
@[simp] theorem resetSynth_frameOut : (resetSynth s).frameOut = s.frameOut := rfl
@[simp] theorem resetSynth_shadow : (resetSynth s).shadow = s.shadow := rfl
@[simp] theorem resetSynth_events : (resetSynth s).events = s.events := rfl
@[simp] theorem resetSynth_inputs : (resetSynth s).inputs = s.inputs := rfl

@[simp] theorem synth_outer (r : RegState) : (synth r s).outer = s.outer := rfl
@[simp] theorem synth_inner (r : RegState) : (synth r s).inner = s.inner := rfl
@[simp] theorem synth_segmentEnd (r : RegState) : (synth r s).segmentEnd = s.segmentEnd := rfl
@[simp] theorem synth_delay (r : RegState) : (synth r s).delay = s.delay := rfl
@[simp] theorem synth_parity (r : RegState) : (synth r s).parity = s.parity := rfl
@[simp] theorem synth_bc (r : RegState) : (synth r s).bc = s.bc := rfl
@[simp] theorem synth_offset (r : RegState) : (synth r s).offset = s.offset := rfl
@[simp] theorem synth_artifact (r : RegState) : (synth r s).artifact = s.artifact := rfl
@[simp] theorem synth_prev (r : RegState) : (synth r s).prev = r := rfl
@[simp] theorem synth_frameOut (r : RegState) : (synth r s).frameOut = synthFrame s.prev r := rfl
@[simp] theorem synth_shadow (r : RegState) : (synth r s).shadow = s.shadow := rfl
@[simp] theorem synth_events (r : RegState) : (synth r s).events = s.events := rfl
@[simp] theorem synth_inputs (r : RegState) : (synth r s).inputs = s.inputs := rfl

/-! The eight registers. -/

@[simp] theorem RegState.get_set_self (r : RegState) (f : Field) (v : BitVec f.width) : (r.set f v).get f = v := by
  cases f <;> rfl

theorem RegState.get_set_other (r : RegState) {f g : Field} (v : BitVec f.width) (h : g ≠ f) :
    (r.set f v).get g = r.get g := by
  cases f <;> cases g <;> first | rfl | exact absurd rfl h

/-- Two register states with the same eight fields are equal (R21). -/
theorem RegState.ext_get {a b : RegState} (h : ∀ f, a.get f = b.get f) : a = b := by
  cases a; cases b
  have h0 := h .tone0; have h1 := h .tone1; have h2 := h .tone2; have h3 := h .noise
  have h4 := h .volume0; have h5 := h .volume1; have h6 := h .volume2; have h7 := h .volume3
  simp only [RegState.get] at h0 h1 h2 h3 h4 h5 h6 h7
  simp only [h0, h1, h2, h3, h4, h5, h6, h7]

@[simp] theorem RegState.apply_nil (r : RegState) : r.apply [] = r := rfl

@[simp] theorem RegState.apply_cons (r : RegState) (e : SinkEvent) (es : List SinkEvent) :
    r.apply (e :: es) = (r.set e.target e.value).apply es := rfl

theorem RegState.apply_append (r : RegState) (es es' : List SinkEvent) :
    r.apply (es ++ es') = (r.apply es).apply es' := List.foldl_append

end Sys2Proof.Machine
end

