-- ==== Sys2Proof/Laws/Ops.lean ====
section
/-! SUPPORT. Each shared operation once: what it can do, and when it completes. -/

namespace Sys2Proof.Machine

/-! ## Outcomes -/

@[simp] theorem andThen_next (s : State) (k : State → Result) : andThen (.next s) k = k s := rfl
@[simp] theorem andThen_fault (f : Fault) (k : State → Result) : andThen (.fault f) k = .fault f := rfl
@[simp] theorem andThen_refused (r : Refusal) (k : State → Result) : andThen (.refused r) k = .refused r := rfl
@[simp] theorem settle_ok (s : State) : settle (.ok s) = .next s := rfl
@[simp] theorem settle_error (f : Fault) : settle (.error f) = .fault f := rfl

/-- A sequence ends in a next state exactly when both parts do. -/
theorem andThen_eq_next {o : Result} {k : State → Result} {t : State} :
    andThen o k = .next t ↔ ∃ s, o = .next s ∧ k s = .next t := by
  cases o <;> simp

@[simp] theorem settle_eq_next {e : Except Fault State} {t : State} : settle e = .next t ↔ e = .ok t := by
  cases e <;> simp

/-- A sequence of checked operations answers exactly when both parts do. -/
theorem except_bind_eq_ok {α β : Type} {x : Except Fault α} {k : α → Except Fault β} {b : β} :
    (x >>= k) = .ok b ↔ ∃ a, x = .ok a ∧ k a = .ok b := by
  cases x <;> simp [bind, Except.bind]

@[simp] theorem except_bind_ok {α β : Type} (a : α) (k : α → Except Fault β) : ((Except.ok a : Except Fault α) >>= k) = k a := rfl
@[simp] theorem except_bind_error {α β : Type} (f : Fault) (k : α → Except Fault β) :
    ((Except.error f : Except Fault α) >>= k) = .error f := rfl
@[simp] theorem except_pure {α : Type} (a : α) : (pure a : Except Fault α) = .ok a := rfl

/-! ## Reads and cursors -/

/-- FrameRead answers exactly a listed byte (R51). -/
@[simp] theorem frameRead_eq_ok {s : State} {a : BitVec 13} {b : Byte} :
    frameRead s a = .ok b ↔ s.artifact.frameTable.read a.toNat = some b := by
  unfold frameRead; split <;> simp_all

theorem frameRead_of_read {s : State} {a : BitVec 13} {b : Byte} (h : s.artifact.frameTable.read a.toNat = some b) :
    frameRead s a = .ok b := frameRead_eq_ok.mpr h

theorem frameRead_of_none {s : State} {a : BitVec 13} (h : s.artifact.frameTable.read a.toNat = none) :
    frameRead s a = .error (.frameOutOfRange a) := by
  simp [frameRead, h]

/-- IndexRead answers exactly a listed word below `stream_length` (R52). -/
theorem indexRead_eq_ok {s : State} {p : BitVec 16} {w : IndexWord} :
    indexRead s p = .ok w ↔
      p.toNat < s.artifact.streamLength.toNat ∧ s.artifact.indexTable.read p.toNat = some w := by
  unfold indexRead; split
  · split <;> simp_all
  · simp_all

/-- A read depends on the artifact alone (R51, R52). -/
theorem frameRead_congr {s t : State} (h : t.artifact = s.artifact) (a : BitVec 13) : frameRead t a = frameRead s a := by
  simp [frameRead, h]

theorem indexRead_congr {s t : State} (h : t.artifact = s.artifact) (p : BitVec 16) : indexRead t p = indexRead s p := by
  simp [indexRead, h]

/-- A cursor sum answers exactly when it stays in its width (R129). -/
theorem addCursor_eq_ok {n : Nat} {c : Cursor} {x y : BitVec n} {k : Nat} :
    addCursor c x k = .ok y ↔ x.toNat + k < 2 ^ n ∧ y = x + BitVec.ofNat n k := by
  unfold addCursor; split <;> simp_all [eq_comm]

theorem addCursor_ok {n : Nat} (c : Cursor) {x : BitVec n} {k : Nat} (h : x.toNat + k < 2 ^ n) :
    addCursor c x k = .ok (x + BitVec.ofNat n k) := by simp [addCursor, h]

theorem addCursor_error {n : Nat} (c : Cursor) {x : BitVec n} {k : Nat} (h : ¬ x.toNat + k < 2 ^ n) :
    addCursor c x k = .error (.cursorOverflow c) := by simp [addCursor, h]

/-! ## Steps 3 and 4 of a tick -/

/-- WRAP changes at most the three cursors (R127). -/
theorem wrap_frame (s : State) :
    wrap s = { s with outer := (wrap s).outer, inner := (wrap s).inner, segmentEnd := (wrap s).segmentEnd } := by
  unfold wrap; split <;> rfl

/-- DELAY.DEC changes at most the delay (R153). -/
theorem delayDec_frame (s : State) : delayDec s = { s with delay := (delayDec s).delay } := by
  unfold delayDec; split <;> rfl

theorem delayDec_toNat (s : State) : (delayDec s).delay.toNat = s.delay.toNat - 1 := by
  unfold delayDec; split
  · next h => simp [h]
  · next h =>
    have hpos : s.delay.toNat ≠ 0 := fun h' => h (BitVec.eq_of_toNat_eq h')
    have h1 : (1 : BitVec 4).toNat = 1 := rfl
    have hlt := s.delay.isLt
    simp only [State.setDelay_delay, BitVec.toNat_sub, h1]
    omega

@[simp] theorem wrap_delay (s : State) : (wrap s).delay = s.delay := by rw [wrap_frame]

/-- The end of a tick leaves everything but the cursors and the delay (R140). -/
theorem finishTick_frame (s : State) :
    finishTick s = { s with
      outer := (wrap s).outer, inner := (wrap s).inner, segmentEnd := (wrap s).segmentEnd,
      delay := (finishTick s).delay } := by
  rw [finishTick, delayDec_frame, wrap_frame]

/-! ## The nibble cursor -/

/-- The nibble cursor's step changes nothing but the cursor (R146). -/
theorem stepParity_frame {s t : State} (h : stepParity s = .ok t) :
    t = { s with bc := t.bc, parity := t.parity } := by
  unfold stepParity at h
  split at h
  · cases h; rfl
  · obtain ⟨bc, -, h⟩ := except_bind_eq_ok.mp h
    cases h; rfl

/-- ALIGN changes nothing but the nibble cursor and ends with parity low (R150). -/
theorem align_frame {s t : State} (h : align s = .ok t) : t = { s with bc := t.bc, parity := .low } := by
  unfold align at h
  split at h
  · next hp => cases h; simp [← hp]
  · obtain ⟨bc, -, h⟩ := except_bind_eq_ok.mp h
    cases h; rfl

/-- NEXTNIBBLE answers the half of the byte at `bc` that the parity selects, and changes nothing but the nibble cursor (R146). -/
theorem nextNibble_eq_ok {s t : State} {n : Nibble} :
    nextNibble s = .ok (n, t) ↔
      ∃ b, s.artifact.frameTable.read s.bc.toNat = some b ∧ n = selectNibble s.parity b ∧ stepParity s = .ok t := by
  unfold nextNibble
  simp only [except_bind_eq_ok, frameRead_eq_ok, except_pure, Except.ok.injEq, Prod.mk.injEq]
  constructor
  · rintro ⟨b, hb, u, hu, rfl, rfl⟩; exact ⟨b, hb, rfl, hu⟩
  · rintro ⟨b, hb, rfl, hu⟩; exact ⟨b, hb, t, hu, rfl, rfl⟩

theorem nextNibble_frame {s t : State} {n : Nibble} (h : nextNibble s = .ok (n, t)) :
    t = { s with bc := t.bc, parity := t.parity } := by
  obtain ⟨_, _, _, h⟩ := nextNibble_eq_ok.mp h
  exact stepParity_frame h

theorem nextTone_frame {s t : State} {v : BitVec 10} (h : nextTone s = .ok (v, t)) :
    t = { s with bc := t.bc, parity := t.parity } := by
  unfold nextTone at h
  obtain ⟨⟨n0, s1⟩, h1, h⟩ := except_bind_eq_ok.mp h
  obtain ⟨⟨n1, s2⟩, h2, h⟩ := except_bind_eq_ok.mp h
  obtain ⟨⟨n2, s3⟩, h3, h⟩ := except_bind_eq_ok.mp h
  cases h
  rw [nextNibble_frame h3, nextNibble_frame h2, nextNibble_frame h1]

end Sys2Proof.Machine
end

