-- ==== Sys2Proof/Laws/Exec.lean ====
section
/-! SUPPORT. Each instruction once: what a next state of `exec` can be. -/

namespace Sys2Proof.Machine

/-- The event a field-write operation emits goes to its own target, and only the nibble cursor moves besides (R147). -/
theorem writeTone_frame {event : BitVec 10 → SinkEvent} {s t : State} (h : writeTone event s = .ok t) :
    ∃ v, t = ({ s with bc := t.bc, parity := t.parity }).sinkWrite (event v) := by
  unfold writeTone at h
  obtain ⟨⟨v, u⟩, hu, h⟩ := except_bind_eq_ok.mp h
  cases h
  exact ⟨v, by rw [nextTone_frame hu]; rfl⟩

theorem writeNibble_frame {event : BitVec 4 → SinkEvent} {s t : State} (h : writeNibble event s = .ok t) :
    ∃ v, t = ({ s with bc := t.bc, parity := t.parity }).sinkWrite (event v) := by
  unfold writeNibble at h
  obtain ⟨⟨v, u⟩, hu, h⟩ := except_bind_eq_ok.mp h
  cases h
  exact ⟨v, by rw [nextNibble_frame hu]; rfl⟩

/-- What an index word with bit 15 clear can do (R122, R124): open its own segment, or be played. -/
theorem runLiteral_eq_ok {dly : BitVec 3} {off : BitVec 12} {s t : State} :
    runLiteral dly off s = .ok t ↔
      (s.inner = s.segmentEnd ∧ s.outer.toNat + 1 < 2 ^ 16 ∧ t = s.setCursors (s.outer + 1) (s.outer + 1 - 1) (s.outer + 1)) ∨
      (s.inner ≠ s.segmentEnd ∧ s.inner.toNat + 1 < 2 ^ 16 ∧ t = s.setPlay (s.inner + 1) (delayOf dly) off) := by
  unfold runLiteral
  split
  · next h =>
    simp only [expandLiteral, except_bind_eq_ok, addCursor_eq_ok, except_pure, Except.ok.injEq]
    constructor
    · rintro ⟨_, ⟨hlt, rfl⟩, rfl⟩; exact .inl ⟨h, hlt, rfl⟩
    · rintro (⟨_, hlt, rfl⟩ | ⟨hne, _⟩)
      · exact ⟨_, ⟨hlt, rfl⟩, rfl⟩
      · exact absurd h hne
  · next h =>
    simp only [playLiteral, except_bind_eq_ok, addCursor_eq_ok, except_pure, Except.ok.injEq]
    constructor
    · rintro ⟨_, ⟨hlt, rfl⟩, rfl⟩; exact .inr ⟨h, hlt, rfl⟩
    · rintro (⟨heq, _⟩ | ⟨_, hlt, rfl⟩)
      · exact absurd heq h
      · exact ⟨_, ⟨hlt, rfl⟩, rfl⟩

/-- What an index word with bit 15 set can do (R123, R125): enter its run. -/
theorem runBackref_eq_ok {len : BitVec 3} {start : BitVec 12} {s t : State} :
    runBackref len start s = .ok t ↔
      s.inner = s.segmentEnd ∧ start.toNat + lengthOf len ≤ s.outer.toNat ∧ s.outer.toNat + 1 < 2 ^ 16 ∧
        t = s.setCursors (s.outer + 1) (start.setWidth 16) (start.setWidth 16 + BitVec.ofNat 16 (lengthOf len)) := by
  unfold runBackref expandBackref
  split
  · next h =>
    split
    · simp [h]; omega
    · next hle =>
      have hfit : (start.setWidth 16).toNat + lengthOf len < 2 ^ 16 := by
        have := start.isLt; have := len.isLt
        simp only [BitVec.toNat_setWidth, lengthOf]; omega
      simp only [except_bind_eq_ok, addCursor_eq_ok, except_pure, Except.ok.injEq, h, true_and]
      constructor
      · rintro ⟨_, ⟨hlt, rfl⟩, _, ⟨-, rfl⟩, rfl⟩; exact ⟨by omega, hlt, rfl⟩
      · rintro ⟨_, hlt, rfl⟩; exact ⟨_, ⟨hlt, rfl⟩, _, ⟨hfit, rfl⟩, rfl⟩
  · next h => simp [h]

/-- A word with bit 15 clear runs as a literal, in either spelling (R89). -/
theorem exec_decodeWord_literal {w : IndexWord} (h : flagOf w = false) (s : State) :
    exec (decodeWord w) s = settle (runLiteral (hi3Of w) (lo12Of w) s) := by
  unfold decodeWord
  by_cases h0 : lo12Of w = 0
  · rw [h, if_neg (by simp), if_pos h0, h0]; rfl
  · rw [h, if_neg (by simp), if_neg h0]; rfl

/-- A word with bit 15 set runs as a back-reference (R89). -/
theorem exec_decodeWord_backref {w : IndexWord} (h : flagOf w = true) (s : State) :
    exec (decodeWord w) s = settle (runBackref (hi3Of w) (lo12Of w) s) := by
  unfold decodeWord
  rw [if_pos h]; rfl

/-- No meaning of an instruction is a refusal. -/
theorem exec_ne_refused (i : Instr) (s : State) (r : Refusal) : exec i s ≠ .refused r := by
  have hs : ∀ e : Except Fault State, settle e ≠ .refused r := by intro e; cases e <;> simp
  cases i <;> simp [exec, execLit, execBref, execDly, execWrTone0, execWrTone1, execWrTone2, execWrNoise, execWrVol0, execWrVol1,
    execWrVol2, execWrVol3, execZero, hs]

/-- Whatever the instruction, everything outside the cursors, the delay, the transient fields and the sink is kept. -/
theorem exec_frame {i : Instr} {s t : State} (h : exec i s = .next t) :
    t = { s with
      outer := t.outer, inner := t.inner, segmentEnd := t.segmentEnd, delay := t.delay, parity := t.parity, bc := t.bc,
      offset := t.offset, shadow := t.shadow, events := t.events } := by
  have tone : ∀ {event : BitVec 10 → SinkEvent}, settle (writeTone event s) = .next t → _ :=
    fun h => writeTone_frame (settle_eq_next.mp h)
  have nibble : ∀ {event : BitVec 4 → SinkEvent}, settle (writeNibble event s) = .next t → _ :=
    fun h => writeNibble_frame (settle_eq_next.mp h)
  cases i with
  | lit dly off =>
    obtain ⟨_, _, rfl⟩ | ⟨_, _, rfl⟩ := runLiteral_eq_ok.mp (settle_eq_next.mp h) <;> rfl
  | dly dly =>
    obtain ⟨_, _, rfl⟩ | ⟨_, _, rfl⟩ := runLiteral_eq_ok.mp (settle_eq_next.mp h) <;> rfl
  | bref len start =>
    obtain ⟨_, _, _, rfl⟩ := runBackref_eq_ok.mp (settle_eq_next.mp h); rfl
  | zero => cases h; rfl
  | wrTone0 => obtain ⟨v, hv⟩ := tone h; rw [hv]; rfl
  | wrTone1 => obtain ⟨v, hv⟩ := tone h; rw [hv]; rfl
  | wrTone2 => obtain ⟨v, hv⟩ := tone h; rw [hv]; rfl
  | wrNoise => obtain ⟨v, hv⟩ := nibble h; rw [hv]; rfl
  | wrVol0 => obtain ⟨v, hv⟩ := nibble h; rw [hv]; rfl
  | wrVol1 => obtain ⟨v, hv⟩ := nibble h; rw [hv]; rfl
  | wrVol2 => obtain ⟨v, hv⟩ := nibble h; rw [hv]; rfl
  | wrVol3 => obtain ⟨v, hv⟩ := nibble h; rw [hv]; rfl

end Sys2Proof.Machine
end

