-- ==== Sys2Proof/Laws/Unpack.lean ====
section
/-! SUPPORT. The frame unpacker as a walk over a nibble stream (R55, R143 to R150). -/

namespace Sys2Proof.Machine

/-! ## The nibble cursor as one number -/

/-- The parity of a nibble position. -/
def parityAt (q : Nat) : Parity := if q % 2 = 0 then .low else .high

/-- The nibble at a position of FRAME: position `2a` is the low nibble of byte `a` (R55). -/
def nibbleAt (m : Memory 8) (q : Nat) : Option Nibble := (m.read (q / 2)).map (selectNibble (parityAt q))

/-- The nibble cursor at a position. -/
def State.atNibble (s : State) (q : Nat) : State := { s with bc := BitVec.ofNat 13 (q / 2), parity := parityAt q }

@[simp] theorem State.atNibble_artifact (s : State) (q : Nat) : (s.atNibble q).artifact = s.artifact := rfl
@[simp] theorem State.atNibble_atNibble (s : State) (q r : Nat) : (s.atNibble q).atNibble r = s.atNibble r := rfl
theorem State.sinkWrite_atNibble (s : State) (q : Nat) (e : SinkEvent) :
    (s.atNibble q).sinkWrite e = (s.sinkWrite e).atNibble q := rfl

/-- NEXTNIBBLE at a position of the nibble stream: the nibble there, and the next position (R146). -/
theorem nextNibble_atNibble {s : State} {q : Nat} {n : Nibble} (hq : q + 1 < 16384)
    (hn : nibbleAt s.artifact.frameTable q = some n) : nextNibble (s.atNibble q) = .ok (n, s.atNibble (q + 1)) := by
  obtain ⟨b, hb, rfl⟩ := Option.map_eq_some_iff.mp hn
  have hbc : (BitVec.ofNat 13 (q / 2)).toNat = q / 2 := by simp; omega
  refine nextNibble_eq_ok.mpr ⟨b, by simpa [State.atNibble, hbc] using hb, rfl, ?_⟩
  rcases Nat.mod_two_eq_zero_or_one q with h | h
  · have h' : (q + 1) % 2 = 1 := by omega
    have hd : (q + 1) / 2 = q / 2 := by omega
    simp [stepParity, State.atNibble, parityAt, h, h', hd, State.setParity]
  · have h' : (q + 1) % 2 = 0 := by omega
    have hd : (q + 1) / 2 = q / 2 + 1 := by omega
    have hlt : q / 2 + 1 < 8192 := by omega
    have hadd : BitVec.ofNat 13 (q / 2) + 1#13 = BitVec.ofNat 13 (q / 2 + 1) := by
      apply BitVec.eq_of_toNat_eq; simp
    simp [stepParity, State.atNibble, parityAt, h, h', hd, addCursor, hlt, hadd, State.setParity, State.setBc, Nat.mod_eq_of_lt,
      show q / 2 < 8192 by omega]

/-- ALIGN at a position of the nibble stream: the next byte boundary (R150). -/
theorem align_atNibble {s : State} {q : Nat} (hq : q + 1 < 16384) :
    align (s.atNibble q) = .ok (s.atNibble (2 * ((q + 1) / 2))) := by
  rcases Nat.mod_two_eq_zero_or_one q with h | h
  · have hr : 2 * ((q + 1) / 2) = q := by omega
    simp [align, State.atNibble, parityAt, h, hr]
  · have hr : 2 * ((q + 1) / 2) = q + 1 := by omega
    have h' : (q + 1) % 2 = 0 := by omega
    have hd : (q + 1) / 2 = q / 2 + 1 := by omega
    have hadd : BitVec.ofNat 13 (q / 2) + 1#13 = BitVec.ofNat 13 (q / 2 + 1) := by
      apply BitVec.eq_of_toNat_eq; simp
    rw [hr]
    simp [align, State.atNibble, parityAt, h, h', hd, addCursor, hadd, State.setParity, State.setBc, Nat.mod_eq_of_lt,
      show q / 2 < 8192 by omega, show q / 2 + 1 < 8192 by omega]

/-! ## One field-write operation -/

/-- The value a field's payload nibbles make (R78, R79). -/
def unpackField (f : Field) (ns : List Nibble) : BitVec f.width :=
  match f with
  | .tone0 => toneValue (ns.getD 0 0) (ns.getD 1 0) (ns.getD 2 0)
  | .tone1 => toneValue (ns.getD 0 0) (ns.getD 1 0) (ns.getD 2 0)
  | .tone2 => toneValue (ns.getD 0 0) (ns.getD 1 0) (ns.getD 2 0)
  | .noise => ns.getD 0 0
  | .volume0 => ns.getD 0 0
  | .volume1 => ns.getD 0 0
  | .volume2 => ns.getD 0 0
  | .volume3 => ns.getD 0 0

theorem toneValue_pack (v : BitVec 10) :
    toneValue (v.extractLsb' 0 4) (v.extractLsb' 4 4) (0#2 ++ v.extractLsb' 8 2) = v := by
  apply BitVec.eq_of_getLsbD_eq
  intro i hi
  show (BitVec.extractLsb' 0 2 (0#2 ++ v.extractLsb' 8 2) ++ v.extractLsb' 4 4 ++ v.extractLsb' 0 4).getLsbD i = _
  simp only [BitVec.getLsbD_append, BitVec.getLsbD_extractLsb']
  split
  · simp [*]
  · split
    · simp [*]; rw [Nat.add_sub_cancel' (by omega), BitVec.getLsbD_eq_getElem]
    · have h1 : i - 4 - 4 < 2 := by omega
      simp only [h1, decide_true, Bool.true_and]
      simp [show 8 + (i - 4 - 4) = i by omega, h1]

/-- Unpacking a packed field gives its value (R78, R79, R103, R104). -/
theorem unpackField_packField (f : Field) (v : BitVec f.width) : unpackField f (packField f v) = v := by
  cases f <;> first | exact toneValue_pack v | rfl

theorem packField_length (f : Field) (v : BitVec f.width) : (packField f v).length = nibs f := by
  cases f <;> rfl

/-- The payload nibbles of `ns` stand in FRAME from position `q` on. -/
def NibblesAt (m : Memory 8) (q : Nat) (ns : List Nibble) : Prop :=
  ∀ k n, ns[k]? = some n → nibbleAt m (q + k) = some n

theorem NibblesAt.tail {m : Memory 8} {q : Nat} {n : Nibble} {ns : List Nibble} (h : NibblesAt m q (n :: ns)) :
    NibblesAt m (q + 1) ns := fun k x hx => by
  have := h (k + 1) x (by simpa using hx)
  rwa [Nat.add_assoc, Nat.add_comm 1 k]

theorem NibblesAt.head {m : Memory 8} {q : Nat} {n : Nibble} {ns : List Nibble} (h : NibblesAt m q (n :: ns)) :
    nibbleAt m q = some n := h 0 n rfl

theorem NibblesAt.append_left {m : Memory 8} {q : Nat} {ns ns' : List Nibble} (h : NibblesAt m q (ns ++ ns')) :
    NibblesAt m q ns := fun k n hk => h k n (by rw [List.getElem?_append_left (by
      rw [List.getElem?_eq_some_iff] at hk; exact hk.1)]; exact hk)

theorem NibblesAt.append_right {m : Memory 8} {q : Nat} {ns ns' : List Nibble} (h : NibblesAt m q (ns ++ ns')) :
    NibblesAt m (q + ns.length) ns' := fun k n hk => by
  have := h (ns.length + k) n (by rw [List.getElem?_append_right (by omega), Nat.add_sub_cancel_left]; exact hk)
  rwa [Nat.add_assoc]

/-- A field-write operation on its payload nibbles (R147, R148, R149): the event, and the position after them. -/
theorem exec_ofField {f : Field} {s : State} {q : Nat} {ns : List Nibble} (hlen : ns.length = nibs f) (hq : q + nibs f < 16384)
    (hn : NibblesAt s.artifact.frameTable q ns) :
    exec (Instr.ofField f) (s.atNibble q) =
      .next ((s.sinkWrite ⟨f, unpackField f ns⟩).atNibble (q + nibs f)) := by
  have one : ∀ {event : Nibble → SinkEvent}, (∃ n, ns = [n]) → q + 1 < 16384 →
      settle (writeNibble event (s.atNibble q)) = .next ((s.sinkWrite (event (ns.getD 0 0))).atNibble (q + 1)) := by
    rintro event ⟨n, rfl⟩ hq
    simp [writeNibble, nextNibble_atNibble hq hn.head, State.sinkWrite_atNibble]
  have three : ∀ {event : BitVec 10 → SinkEvent}, (∃ n0 n1 n2, ns = [n0, n1, n2]) → q + 3 < 16384 →
      settle (writeTone event (s.atNibble q)) =
        .next ((s.sinkWrite (event (toneValue (ns.getD 0 0) (ns.getD 1 0) (ns.getD 2 0)))).atNibble (q + 3)) := by
    rintro event ⟨n0, n1, n2, rfl⟩ hq
    simp [writeTone, nextTone, nextNibble_atNibble (s := s) (q := q) (by omega) hn.head,
      nextNibble_atNibble (s := s) (q := q + 1) (by omega) hn.tail.head,
      nextNibble_atNibble (s := s) (q := q + 1 + 1) (by omega) hn.tail.tail.head, State.sinkWrite_atNibble]
  have len1 : nibs f = 1 → ∃ n, ns = [n] := fun h => List.length_eq_one_iff.mp (hlen.trans h)
  have len3 : nibs f = 3 → ∃ n0 n1 n2, ns = [n0, n1, n2] := fun h => List.length_eq_three.mp (hlen.trans h)
  cases f with
  | tone0 => exact three (len3 rfl) hq
  | tone1 => exact three (len3 rfl) hq
  | tone2 => exact three (len3 rfl) hq
  | noise => exact one (len1 rfl) hq
  | volume0 => exact one (len1 rfl) hq
  | volume1 => exact one (len1 rfl) hq
  | volume2 => exact one (len1 rfl) hq
  | volume3 => exact one (len1 rfl) hq

/-! ## A whole payload -/

/-- The payload nibbles a list of fields takes (R80). -/
def totalNibs (fs : List Field) : Nat := (fs.map nibs).sum

/-- The events the payload nibbles of a list of fields make, in order. -/
def unpackEvents : List Field → List Nibble → List SinkEvent
  | [], _ => []
  | f :: fs, ns => ⟨f, unpackField f (ns.take (nibs f))⟩ :: unpackEvents fs (ns.drop (nibs f))

theorem unpackEvents_targets (fs : List Field) (ns : List Nibble) : (unpackEvents fs ns).map SinkEvent.target = fs := by
  induction fs generalizing ns with
  | nil => rfl
  | cons f fs ih => simp [unpackEvents, ih]

/-- Deliver events to the sink, in order (R53). -/
def State.sinkWrites (s : State) (es : List SinkEvent) : State := es.foldl State.sinkWrite s

theorem State.sinkWrites_eq (s : State) (es : List SinkEvent) :
    s.sinkWrites es = { s with shadow := s.shadow.apply es, events := s.events ++ es } := by
  induction es generalizing s with
  | nil => simp [State.sinkWrites]
  | cons e es ih =>
    show (s.sinkWrite e).sinkWrites es = _
    rw [ih]
    simp [State.sinkWrite]

/-- The field-write operations of a list of fields on their payload (R143). -/
theorem runOps_ofFields {fs : List Field} {s : State} {q : Nat} {ns : List Nibble} (hlen : ns.length = totalNibs fs)
    (hq : q + totalNibs fs < 16384) (hn : NibblesAt s.artifact.frameTable q ns) :
    runOps (fs.map Instr.ofField) (s.atNibble q) =
      .next ((s.sinkWrites (unpackEvents fs ns)).atNibble (q + totalNibs fs)) := by
  induction fs generalizing s q ns with
  | nil => rfl
  | cons f fs ih =>
    simp only [totalNibs, List.map_cons, List.sum_cons] at hlen hq
    rw [← List.take_append_drop (nibs f) ns] at hn
    have htake : (ns.take (nibs f)).length = nibs f := by rw [List.length_take]; omega
    have hr := hn.append_right
    rw [htake] at hr
    rw [List.map_cons, runOps, exec_ofField htake (by omega) hn.append_left, andThen_next,
      ih (s := s.sinkWrite ⟨f, unpackField f (ns.take (nibs f))⟩) (ns := ns.drop (nibs f))
        (by simp only [totalNibs, List.length_drop]; omega) (by simp only [totalNibs]; omega) hr]
    simp only [totalNibs, List.map_cons, List.sum_cons, Nat.add_assoc]
    rfl

/-! ## A whole frame -/

/-- The fields a header marks as changed, in field order (R76). -/
def headerFields (h : Byte) : List Field := Field.all.filter (headerHas h)

/-- A header's operations run as its fields' operations; ZERO runs as none (R151). -/
theorem runOps_decodeHeader (h : Byte) (s : State) : runOps (decodeHeader h) s = runOps ((headerFields h).map Instr.ofField) s := by
  unfold decodeHeader
  split
  · next h0 => subst h0; rfl
  · rfl

set_option maxRecDepth 4000 in
/-- The nibble counts of R80 are those of the header's fields. -/
theorem totalNibs_headerFields (h : Byte) : totalNibs (headerFields h) = payloadNibbles h := by
  revert h; decide

set_option maxRecDepth 4000 in
theorem payloadNibbles_le (h : Byte) : payloadNibbles h ≤ 14 := by
  revert h; decide

/-- UNPACK on a frame whose payload nibbles stand in FRAME: the events of its fields, and the byte after its last (R143, R145, R150). -/
theorem unpack_eq {s : State} {h : Byte} {ns : List Nibble} (hp : s.parity = .low)
    (hh : s.artifact.frameTable.read s.offset.toNat = some h) (hlen : ns.length = payloadNibbles h)
    (hn : NibblesAt s.artifact.frameTable (2 * (s.offset.toNat + 1)) ns) :
    unpack s = .next { s with
      bc := BitVec.ofNat 13 (s.offset.toNat + frameLen h)
      shadow := s.shadow.apply (unpackEvents (headerFields h) ns)
      events := s.events ++ unpackEvents (headerFields h) ns } := by
  have ho := s.offset.isLt
  have hk := payloadNibbles_le h
  have hbc : (s.offset.setWidth 13).toNat = s.offset.toNat := by simp; omega
  have hadd : s.offset.setWidth 13 + 1#13 = BitVec.ofNat 13 (s.offset.toNat + 1) := by
    apply BitVec.eq_of_toNat_eq; simp [BitVec.toNat_add]
  have hstart : startFrame s = .ok (h, s.atNibble (2 * (s.offset.toNat + 1))) := by
    have hread : frameRead (s.setBc (s.offset.setWidth 13)) (s.offset.setWidth 13) = .ok h := by
      rw [frameRead_eq_ok, hbc]; exact hh
    have hlt : (s.offset.setWidth 13).toNat + 1 < 2 ^ 13 := by omega
    simp only [startFrame, State.setBc_bc, hread, addCursor_ok .bc hlt, except_bind_ok, except_pure, Except.ok.injEq,
      Prod.mk.injEq, true_and]
    simp [State.setBc, State.atNibble, parityAt, hp, hadd]
  have htot := totalNibs_headerFields h
  have hrun := runOps_ofFields (s := s) (fs := headerFields h) (q := 2 * (s.offset.toNat + 1)) (ns := ns)
    (by rw [htot]; exact hlen) (by omega) hn
  rw [unpack, hstart]
  simp only [runOps_decodeHeader, hrun, andThen_next, htot, align_atNibble (show 2 * (s.offset.toNat + 1) + payloadNibbles h + 1 < 16384 by omega),
    settle_ok, Host.Outcome.next.injEq]
  have hlen' : (2 * (s.offset.toNat + 1) + payloadNibbles h + 1) / 2 = s.offset.toNat + frameLen h := by
    unfold frameLen; omega
  rw [hlen', State.sinkWrites_eq]
  simp [State.atNibble, parityAt, hp]

/-- Whatever they read, the field-write operations of a list of fields emit one event for each, in order, and move only the nibble cursor
besides (R143). -/
theorem runOps_ofFields_frame {fs : List Field} {s t : State} (h : runOps (fs.map Instr.ofField) s = .next t) :
    ∃ es, es.map SinkEvent.target = fs ∧
      t = { s with bc := t.bc, parity := t.parity, shadow := s.shadow.apply es, events := s.events ++ es } := by
  induction fs generalizing s with
  | nil => cases h; exact ⟨[], rfl, by simp⟩
  | cons f fs ih =>
    obtain ⟨u, hu, h⟩ := andThen_eq_next.mp h
    have hf : ∃ v : BitVec f.width, u = ({ s with bc := u.bc, parity := u.parity }).sinkWrite ⟨f, v⟩ := by
      cases f <;> first
        | exact writeTone_frame (settle_eq_next.mp hu)
        | exact writeNibble_frame (settle_eq_next.mp hu)
    obtain ⟨v, hv⟩ := hf
    obtain ⟨es, rfl, ht⟩ := ih h
    refine ⟨⟨f, v⟩ :: es, rfl, ?_⟩
    rw [ht, hv]
    simp [State.sinkWrite]

/-- Whatever it reads, UNPACK changes only the nibble cursor and the sink, ends with parity low, and emits one event for each set bit of the
header at the frame offset (R143, R154). -/
theorem unpack_frame {s t : State} (h : unpack s = .next t) :
    ∃ hd es, s.artifact.frameTable.read s.offset.toNat = some hd ∧ es.map SinkEvent.target = headerFields hd ∧
      t = { s with bc := t.bc, parity := .low, shadow := s.shadow.apply es, events := s.events ++ es } := by
  have ho := s.offset.isLt
  have hbc : (s.offset.setWidth 13).toNat = s.offset.toNat := by simp; omega
  unfold unpack at h
  split at h
  · next hd u hs =>
    obtain ⟨b, hb, hs⟩ := except_bind_eq_ok.mp hs
    obtain ⟨bc, -, hs⟩ := except_bind_eq_ok.mp hs
    cases hs
    rw [frameRead_eq_ok, State.setBc_bc, hbc, State.setBc_artifact] at hb
    obtain ⟨v, hv, ha⟩ := andThen_eq_next.mp h
    rw [runOps_decodeHeader] at hv
    obtain ⟨es, hes, hv⟩ := runOps_ofFields_frame hv
    refine ⟨hd, es, hb, hes, ?_⟩
    rw [align_frame (settle_eq_next.mp ha), hv]
    simp
  · cases h

end Sys2Proof.Machine
end

