-- ==== Sys2Proof/Laws/Synth.lean ====
section
/-! SUPPORT. The synthesizer's frames: their header, their length, their payload as a nibble stream (R80, R100 to R112). -/

namespace Sys2Proof.Machine

/-- A header made from a selection of the fields has exactly their bits (R102). -/
theorem headerHas_headerOf (p : Field → Bool) (f : Field) : headerHas (headerOf (Field.all.filter p)) f = p f := by
  have key : ∀ b0 b1 b2 b3 b4 b5 b6 b7 : Bool, p .tone0 = b0 → p .tone1 = b1 → p .tone2 = b2 → p .noise = b3 →
      p .volume0 = b4 → p .volume1 = b5 → p .volume2 = b6 → p .volume3 = b7 →
      ∀ f, headerHas (headerOf (Field.all.filter p)) f = p f := by
    intro b0 b1 b2 b3 b4 b5 b6 b7 h0 h1 h2 h3 h4 h5 h6 h7 f
    cases f <;> simp only [Field.all, List.filter, h0, h1, h2, h3, h4, h5, h6, h7] <;>
    · clear h0 h1 h2 h3 h4 h5 h6 h7
      revert b0 b1 b2 b3 b4 b5 b6 b7
      decide
  exact key _ _ _ _ _ _ _ _ rfl rfl rfl rfl rfl rfl rfl rfl f

/-- The header SYNTH makes marks exactly the changed fields (R102). -/
theorem headerFields_synthHeader (prev cur : RegState) : headerFields (synthHeader prev cur) = changedFields prev cur := by
  unfold headerFields synthHeader changedFields
  congr 1
  funext f
  exact headerHas_headerOf _ f

/-- PACK.BYTES makes `ceil(k/2)` bytes (R105). -/
theorem packBytes_length (ns : List Nibble) : (packBytes ns).length = (ns.length + 1) / 2 := by
  induction ns using packBytes.induct with
  | case1 => rfl
  | case2 n => simp [packBytes]
  | case3 n0 n1 ns ih => simp [packBytes, ih]; omega

/-- The payload has the nibble count its header says (R80). -/
theorem synthNibbles_length (prev cur : RegState) :
    (synthNibbles prev cur).length = payloadNibbles (synthHeader prev cur) := by
  rw [← totalNibs_headerFields, headerFields_synthHeader, synthNibbles, List.length_flatMap, totalNibs]
  congr 1
  exact List.map_congr_left fun f _ => packField_length f _

/-- The frame has the length its header says (R112). -/
theorem synthFrame_length (prev cur : RegState) : (synthFrame prev cur).length = frameLen (synthHeader prev cur) := by
  simp only [synthFrame, List.length_cons, packBytes_length, synthNibbles_length, frameLen]
  omega

/-- Unpacking a packed payload gives the packed values (R111). -/
theorem unpackEvents_pack (cur : RegState) (fs : List Field) :
    unpackEvents fs (fs.flatMap fun f => packField f (cur.get f)) = fs.map fun f => ⟨f, cur.get f⟩ := by
  induction fs with
  | nil => rfl
  | cons f fs ih =>
    have hl := packField_length f (cur.get f)
    simp only [List.flatMap_cons, unpackEvents, List.map_cons, ← hl, List.take_left, List.drop_left, ih, unpackField_packField]

theorem selectNibble_low (a b : Nibble) : selectNibble .low (a ++ b) = b := by revert a b; decide
theorem selectNibble_high (a b : Nibble) : selectNibble .high (a ++ b) = a := by revert a b; decide

/-- Packed bytes that stand in FRAME from byte `a` on hold their nibbles from position `2a` on (R55, R105). -/
theorem nibblesAt_of_packBytes (m : Memory 8) (ns : List Nibble) (a : Nat)
    (h : ∀ k b, (packBytes ns)[k]? = some b → m.read (a + k) = some b) : NibblesAt m (2 * a) ns := by
  induction ns using packBytes.induct generalizing a with
  | case1 => intro k n hk; simp at hk
  | case2 x =>
    intro k n hk
    cases k with
    | zero =>
      simp only [List.getElem?_cons_zero, Option.some.injEq] at hk
      subst hk
      have h0 := h 0 _ rfl
      simpa [nibbleAt, parityAt] using ⟨_, h0, selectNibble_low _ _⟩
    | succ k => simp at hk
  | case3 x y ns ih =>
    have h0 := h 0 _ rfl
    have ih := ih (a + 1) (fun k b hk => by
      have := h (k + 1) b (by simpa [packBytes] using hk)
      rwa [show a + 1 + k = a + (k + 1) by omega])
    intro k n hk
    match k, hk with
    | 0, hk =>
      simp only [List.getElem?_cons_zero, Option.some.injEq] at hk
      subst hk
      simpa [nibbleAt, parityAt] using ⟨_, h0, selectNibble_low _ _⟩
    | 1, hk =>
      simp only [List.getElem?_cons_succ, List.getElem?_cons_zero, Option.some.injEq] at hk
      subst hk
      have hd : (2 * a + 1) / 2 = a := by omega
      have hm : (2 * a + 1) % 2 = 1 := by omega
      simpa [nibbleAt, parityAt, hd, hm] using ⟨_, h0, selectNibble_high _ _⟩
    | k + 2, hk =>
      have := ih k n (by simpa using hk)
      rwa [show 2 * (a + 1) + k = 2 * a + (k + 2) by omega] at this

/-- Where every byte of a payload can be read, its nibbles stand in FRAME (R51). -/
theorem exists_nibblesAt (m : Memory 8) (q k : Nat) (h : ∀ i, i < k → (m.read ((q + i) / 2)).isSome = true) :
    ∃ ns : List Nibble, ns.length = k ∧ NibblesAt m q ns := by
  induction k with
  | zero => exact ⟨[], rfl, by intro k n h; simp at h⟩
  | succ k ih =>
    obtain ⟨ns, hl, hn⟩ := ih fun i hi => h i (by omega)
    obtain ⟨b, hb⟩ := Option.isSome_iff_exists.mp (h k (by omega))
    refine ⟨ns ++ [selectNibble (parityAt (q + k)) b], by simp [hl], ?_⟩
    intro j n hj
    rcases Nat.lt_trichotomy j ns.length with hlt | rfl | hgt
    · rw [List.getElem?_append_left hlt] at hj; exact hn j n hj
    · simp only [List.getElem?_concat_length, Option.some.injEq] at hj
      subst hj; rw [hl, nibbleAt, hb]; rfl
    · rw [List.getElem?_eq_none (by simp; omega)] at hj; cases hj

/-- Applying the values some fields of a register state have carries exactly those fields over (R21, R32). -/
theorem RegState.get_apply_map (p c : RegState) (fs : List Field) (g : Field) :
    (p.apply (fs.map fun f => ⟨f, c.get f⟩)).get g = if g ∈ fs then c.get g else p.get g := by
  induction fs generalizing p with
  | nil => rfl
  | cons f fs ih =>
    rw [List.map_cons, RegState.apply_cons, ih]
    by_cases hg : g = f
    · subst hg; simp
    · simp [hg, RegState.get_set_other _ _ hg]

end Sys2Proof.Machine
end

