-- ==== Sys2Proof/Laws/Tick.lean ====
section
/-! SUPPORT. A tick once: what its fetches and the whole of it can do (R121, R124, R140). -/

namespace Sys2Proof.Machine

/-- A cursor differs from its successor. -/
theorem ne_succ (x : BitVec 16) : x ≠ x + 1 := by
  intro hc
  have h' := congrArg BitVec.toNat hc
  simp only [BitVec.toNat_add, show (1 : BitVec 16).toNat = 1 from rfl] at h'
  omega

theorem toNat_succ {x : BitVec 16} (h : x.toNat + 1 < 2 ^ 16) : (x + 1).toNat = x.toNat + 1 := by
  simp only [BitVec.toNat_add, show (1 : BitVec 16).toNat = 1 from rfl]
  omega

/-- The end of a run, in numbers (R75). -/
theorem runEnd_toNat (len : BitVec 3) (start : BitVec 12) :
    (start.setWidth 16 + BitVec.ofNat 16 (lengthOf len)).toNat = start.toNat + lengthOf len := by
  have := start.isLt; have := len.isLt
  simp only [BitVec.toNat_add, BitVec.toNat_setWidth, BitVec.toNat_ofNat, lengthOf]
  omega

/-- What the word at `outer` does when FETCH.OUTER runs it to a next state (R121 to R123). -/
inductive OuterEffect (s : State) : State → Prop where
  /-- A segment is in flight: FETCH.OUTER is skipped (R126). -/
  | skipped (h : s.inner ≠ s.segmentEnd) : OuterEffect s s
  /-- A literal opens the segment of its own position (R122). -/
  | literal (w : IndexWord) (he : s.inner = s.segmentEnd) (hr : indexRead s s.outer = .ok w) (hf : flagOf w = false)
      (hlt : s.outer.toNat + 1 < 2 ^ 16) : OuterEffect s (s.setCursors (s.outer + 1) (s.outer + 1 - 1) (s.outer + 1))
  /-- A back-reference enters its run (R123). -/
  | backref (w : IndexWord) (he : s.inner = s.segmentEnd) (hr : indexRead s s.outer = .ok w) (hf : flagOf w = true)
      (hlt : s.outer.toNat + 1 < 2 ^ 16) (hle : (lo12Of w).toNat + lengthOf (hi3Of w) ≤ s.outer.toNat) :
      OuterEffect s (s.setCursors (s.outer + 1) ((lo12Of w).setWidth 16)
        ((lo12Of w).setWidth 16 + BitVec.ofNat 16 (lengthOf (hi3Of w))))

/-- FETCH.OUTER ends in a next state exactly by one of its effects (R121). -/
theorem fetchOuter_eq_next {s t : State} : fetchOuter s = .next t ↔ OuterEffect s t := by
  constructor
  · intro h
    unfold fetchOuter at h
    split at h
    · next he =>
      unfold runWord at h
      split at h
      · next w hr =>
        cases hf : flagOf w
        · rw [exec_decodeWord_literal hf] at h
          obtain ⟨_, hlt, rfl⟩ | ⟨hne, _⟩ := runLiteral_eq_ok.mp (settle_eq_next.mp h)
          · exact .literal w he hr hf hlt
          · exact absurd he hne
        · rw [exec_decodeWord_backref hf] at h
          obtain ⟨_, hle, hlt, rfl⟩ := runBackref_eq_ok.mp (settle_eq_next.mp h)
          exact .backref w he hr hf hlt hle
      · cases h
    · next he => cases h; exact .skipped he
  · intro h
    cases h with
    | skipped h => simp [fetchOuter, h]
    | literal w he hr hf hlt =>
      rw [fetchOuter, if_pos he, runWord, hr]
      exact (exec_decodeWord_literal hf s).trans (settle_eq_next.mpr (runLiteral_eq_ok.mpr (.inl ⟨he, hlt, rfl⟩)))
    | backref w he hr hf hlt hle =>
      rw [fetchOuter, if_pos he, runWord, hr]
      exact (exec_decodeWord_backref hf s).trans (settle_eq_next.mpr (runBackref_eq_ok.mpr ⟨he, hle, hlt, rfl⟩))

/-- Each of FETCH.OUTER's effects leaves a segment in flight and changes at most the cursors (R121 to R123, R126). -/
theorem OuterEffect.spec {s t : State} (h : OuterEffect s t) :
    t.inner ≠ t.segmentEnd ∧ t = s.setCursors t.outer t.inner t.segmentEnd := by
  cases h with
  | skipped h => exact ⟨h, rfl⟩
  | literal w he hr hf hlt =>
    refine ⟨?_, rfl⟩
    simp only [State.setCursors_inner, State.setCursors_segmentEnd, BitVec.add_sub_cancel]
    exact ne_succ _
  | backref w he hr hf hlt hle =>
    refine ⟨?_, rfl⟩
    intro hc
    have h' := congrArg BitVec.toNat hc
    rw [State.setCursors_segmentEnd, runEnd_toNat] at h'
    have := (lo12Of w).isLt
    simp only [State.setCursors_inner, BitVec.toNat_setWidth, lengthOf] at h'
    omega

/-- FETCH.OUTER looks at the cursors and the artifact alone (R121 to R123). -/
theorem OuterEffect.congr {s t u : State} (h : OuterEffect s t) (ha : u.artifact = s.artifact) (ho : u.outer = s.outer)
    (hi : u.inner = s.inner) (hse : u.segmentEnd = s.segmentEnd) :
    OuterEffect u (u.setCursors t.outer t.inner t.segmentEnd) := by
  cases h with
  | skipped h =>
    rw [← ho, ← hi, ← hse]
    exact .skipped (by rw [hi, hse]; exact h)
  | literal w he hr hf hlt =>
    rw [← ho]
    exact .literal w (by rw [hi, hse]; exact he) (by rw [ho]; exact (indexRead_congr ha _).trans hr) hf (by rw [ho]; exact hlt)
  | backref w he hr hf hlt hle =>
    rw [← ho]
    exact .backref w (by rw [hi, hse]; exact he) (by rw [ho]; exact (indexRead_congr ha _).trans hr) hf (by rw [ho]; exact hlt)
      (by rw [ho]; exact hle)

/-- The word a fetch tick plays is the one at `inner` after FETCH.OUTER's turn (R124, R140). -/
theorem playedWord_of_outer {s u : State} (hd : s.delay = 0) (hu : OuterEffect s.clearEvents u) :
    playedWord s = s.artifact.indexTable.read u.inner.toNat := by
  rw [playedWord, if_pos hd, fetchOuter_eq_next.mpr hu]
  show u.artifact.indexTable.read _ = _
  rw [hu.spec.2]; rfl

/-- A played word comes from a fetch tick whose FETCH.OUTER ended in a next state (R140). -/
theorem playedWord_eq_some {s : State} {w : IndexWord} (h : playedWord s = some w) :
    s.delay = 0 ∧ ∃ u, OuterEffect s.clearEvents u ∧ s.artifact.indexTable.read u.inner.toNat = some w := by
  unfold playedWord at h
  split at h
  · next hd =>
    cases hf : fetchOuter s.clearEvents with
    | next u =>
      rw [hf] at h
      have hu := fetchOuter_eq_next.mp hf
      have ha : u.artifact = s.artifact := by rw [hu.spec.2]; rfl
      exact ⟨hd, u, hu, ha ▸ h⟩
    | fault f => rw [hf] at h; cases h
    | refused r => rw [hf] at h; cases h
  · cases h

/-- The played word depends on the delay, the cursors and the artifact alone. -/
theorem playedWord_congr {s t : State} {w : IndexWord} (h : playedWord s = some w) (ha : t.artifact = s.artifact)
    (hd : t.delay = s.delay) (ho : t.outer = s.outer) (hi : t.inner = s.inner) (hse : t.segmentEnd = s.segmentEnd) :
    playedWord t = some w := by
  obtain ⟨hd', u, hu, hw⟩ := playedWord_eq_some h
  rw [playedWord_of_outer (hd.trans hd') (hu.congr ha ho hi hse), ha]
  exact hw

/-- FETCH.INNER, with a segment in flight, ends in a next state exactly when the word at `inner` is a literal it can step past (R124, R125). -/
theorem fetchInner_eq_next {s t : State} (hne : s.inner ≠ s.segmentEnd) :
    fetchInner s = .next t ↔ ∃ x, indexRead s s.inner = .ok x ∧ flagOf x = false ∧
      t = s.setPlay (s.inner + 1) (delayOf (hi3Of x)) (lo12Of x) := by
  unfold fetchInner runWord
  constructor
  · intro h
    split at h
    · next x hr =>
      cases hf : flagOf x
      · rw [exec_decodeWord_literal hf] at h
        obtain ⟨he, _⟩ | ⟨_, _, rfl⟩ := runLiteral_eq_ok.mp (settle_eq_next.mp h)
        · exact absurd he hne
        · exact ⟨x, hr, hf, rfl⟩
      · rw [exec_decodeWord_backref hf] at h
        exact absurd (runBackref_eq_ok.mp (settle_eq_next.mp h)).1 hne
    · cases h
  · rintro ⟨x, hr, hf, rfl⟩
    have hlt := (indexRead_eq_ok.mp hr).1
    have := s.artifact.streamLength.isLt
    rw [hr]
    exact (exec_decodeWord_literal hf s).trans (settle_eq_next.mpr (runLiteral_eq_ok.mpr (.inr ⟨hne, by omega, rfl⟩)))

/-- What a tick can do (R140): an idle tick ends at once; a fetch tick plays a literal `x` of the segment FETCH.OUTER leaves and emits the
events of the frame it selects. -/
inductive TickEffect (s : State) : State → Prop where
  | idle (hd : s.delay ≠ 0) : TickEffect s (finishTick s.clearEvents)
  | fetch (hd : s.delay = 0) (u : State) (hu : OuterEffect s.clearEvents u) (x : IndexWord)
      (hx : indexRead s u.inner = .ok x) (hf : flagOf x = false) (h : Byte)
      (hh : s.artifact.frameTable.read (lo12Of x).toNat = some h) (es : List SinkEvent)
      (hes : es.map SinkEvent.target = headerFields h) (bc : BitVec 13) :
      TickEffect s (finishTick { u with
        inner := u.inner + 1, delay := delayOf (hi3Of x), offset := lo12Of x, bc := bc, parity := .low,
        shadow := s.shadow.apply es, events := es })

/-- A tick that ends in a next state has one of these effects (R140). -/
theorem tick_effect {s t : State} (h : tick s = .next t) : TickEffect s t := by
  unfold tick at h
  by_cases hd : s.delay = 0
  · rw [if_pos hd] at h
    obtain ⟨u, hu, h⟩ := andThen_eq_next.mp h
    rw [fetchOuter_eq_next] at hu
    obtain ⟨hne, hfr⟩ := hu.spec
    obtain ⟨v, hv, h⟩ := andThen_eq_next.mp h
    obtain ⟨x, hx, hf, rfl⟩ := (fetchInner_eq_next hne).mp hv
    obtain ⟨y, hy, h⟩ := andThen_eq_next.mp h
    obtain ⟨hd', es, hh, hes, hy'⟩ := unpack_frame hy
    cases h
    rw [hy']
    have ha : u.artifact = s.artifact := by rw [hfr]; rfl
    have hsh : u.shadow = s.shadow := by rw [hfr]; rfl
    have hev : u.events = [] := by rw [hfr]; rfl
    rw [State.setPlay_artifact, State.setPlay_offset, ha] at hh
    rw [indexRead_congr ha] at hx
    simp only [State.setPlay_shadow, State.setPlay_events, hsh, hev, List.nil_append]
    exact .fetch hd u hu x hx hf hd' hh es hes y.bc
  · rw [if_neg hd] at h
    cases h; exact .idle hd

/-- A tick is what happens up to WRAP, then WRAP and DELAY.DEC (R140, R152). -/
theorem tick_eq_beforeWrap (s : State) : tick s = andThen (beforeWrap s) fun u => .next (finishTick u) := by
  unfold tick beforeWrap
  split
  · cases fetchOuter s.clearEvents with
    | next t =>
      rw [andThen_next, andThen_next, playWord]
      cases fetchInner t <;> rfl
    | fault f => rfl
    | refused r => rfl
  · rfl

/-- A fetch tick reaches WRAP where the frame it selects lies in FRAME (R140, R143). -/
theorem beforeWrap_of_fetch {s u : State} {x : IndexWord} {h : Byte} {ns : List Nibble} (hd : s.delay = 0) (hp : s.parity = .low)
    (hu : OuterEffect s.clearEvents u) (hx : indexRead s u.inner = .ok x) (hf : flagOf x = false)
    (hh : s.artifact.frameTable.read (lo12Of x).toNat = some h) (hlen : ns.length = payloadNibbles h)
    (hn : NibblesAt s.artifact.frameTable (2 * ((lo12Of x).toNat + 1)) ns) :
    beforeWrap s = .next { u with
      inner := u.inner + 1, delay := delayOf (hi3Of x), offset := lo12Of x,
      bc := BitVec.ofNat 13 ((lo12Of x).toNat + frameLen h),
      shadow := s.shadow.apply (unpackEvents (headerFields h) ns), events := unpackEvents (headerFields h) ns } := by
  obtain ⟨hne, hfr⟩ := hu.spec
  have ha : u.artifact = s.artifact := by rw [hfr]; rfl
  have hsh : u.shadow = s.shadow := by rw [hfr]; rfl
  have hev : u.events = [] := by rw [hfr]; rfl
  have hpu : u.parity = .low := by rw [hfr]; exact hp
  have hi := (fetchInner_eq_next hne).mpr ⟨x, (indexRead_congr ha _).trans hx, hf, rfl⟩
  unfold beforeWrap
  simp only [hd, if_true, fetchOuter_eq_next.mpr hu, andThen_next, hi]
  rw [unpack_eq (h := h) (ns := ns) (by simpa using hpu) (by simpa [ha] using hh) hlen (by simpa [ha] using hn)]
  simp [State.setPlay, hsh, hev]

/-- The ticks a literal's delay field stands for (R74). -/
theorem delayOf_toNat (d : BitVec 3) : (delayOf d).toNat = d.toNat + 1 := by revert d; decide

/-- A tick ends with 1 off the delay (R153). -/
theorem finishTick_delay_toNat (s : State) : (finishTick s).delay.toNat = s.delay.toNat - 1 := by
  rw [finishTick, delayDec_toNat, wrap_delay]

/-- The gate of a tick (R141). -/
theorem tick_idle {s : State} (h : s.delay ≠ 0) : tick s = .next (finishTick s.clearEvents) := if_neg h
theorem tick_fetch {s : State} (h : s.delay = 0) : tick s = andThen (fetchOuter s.clearEvents) playWord := if_pos h

/-- A run of `j + k` steps is a run of `j` and then one of `k`. -/
theorem runFor_add (j k : Nat) (s : State) : runFor (j + k) s = andThen (runFor j s) (runFor k) := by
  induction j generalizing s with
  | zero => rw [Nat.zero_add]; rfl
  | succ j ih =>
    rw [Nat.add_right_comm, runFor, runFor]
    cases step s with
    | next t => exact ih t
    | fault f => rfl
    | refused r => rfl

/-- A step with no other input queued is a tick (R204). -/
theorem step_of_tick {s : State} (h : s.nextInput = .tick) : step s = tick s.popInput := by
  rw [step, h]; rfl

/-- What idle ticks leave: everything but the delay and the events, as long as no WRAP among them moves a cursor (R127, R141). -/
theorem runFor_idle {s : State} (hi : s.inputs = [])
    (hfix : s.outer = s.artifact.streamLength →
      s.outer = s.artifact.loopOuter ∧ s.inner = s.artifact.loopInner ∧ s.segmentEnd = s.artifact.loopSegmentEnd)
    {n : Nat} (hn : n ≤ s.delay.toNat) :
    ∃ t, runFor n s = .next t ∧ t.delay.toNat = s.delay.toNat - n ∧ t = { s with delay := t.delay, events := t.events } := by
  induction n with
  | zero => exact ⟨s, rfl, rfl, rfl⟩
  | succ n ih =>
    obtain ⟨t, ht, hdel, hfr⟩ := ih (by omega)
    have hin : t.inputs = [] := by rw [hfr]; exact hi
    have hpop : t.popInput = t := by
      show { t with inputs := t.inputs.tail } = t
      rw [hin, List.tail_nil, ← hin]
    have hd : t.delay ≠ 0 := by
      intro h
      rw [h, show (0 : BitVec 4).toNat = 0 from rfl] at hdel
      omega
    have hstep : step t = .next (finishTick t.clearEvents) := by
      rw [step_of_tick (by simp [State.nextInput, hin]), hpop, tick_idle hd]
    have hwrap : wrap t.clearEvents = t.clearEvents := by
      unfold wrap
      split
      · next h =>
        have h' : s.outer = s.artifact.streamLength := by rw [hfr] at h; exact h
        obtain ⟨h1, h2, h3⟩ := hfix h'
        rw [hfr]
        simp only [State.setCursors, State.clearEvents, ← h1, ← h2, ← h3]
      · rfl
    refine ⟨finishTick t.clearEvents, ?_, ?_, ?_⟩
    · rw [runFor_add, ht, andThen_next, runFor, hstep]; rfl
    · rw [finishTick_delay_toNat, State.clearEvents_delay]; omega
    · rw [finishTick_frame, hwrap, hfr]; rfl

end Sys2Proof.Machine
end

