-- ==== Sys2Proof/Laws/Artifact.lean ====
section
/-! SUPPORT. Well-formed artifacts: WF1 to WF5 as facts about positions (R66), and the fetches and frames they let complete. -/

namespace Sys2Proof.Machine

/-! ## The checks as facts -/

theorem Artifact.literalAt_eq_true {a : Artifact} {p : Nat} :
    a.literalAt p = true ↔ ∃ w, a.indexTable.read p = some w ∧ flagOf w = false := by
  unfold Artifact.literalAt
  cases a.indexTable.read p <;> simp

theorem Artifact.literalsIn_eq_true {a : Artifact} {lo hi : Nat} :
    a.literalsIn lo hi = true ↔ ∀ p, lo ≤ p → p < hi → a.literalAt p = true := by
  simp only [Artifact.literalsIn, List.all_eq_true, List.mem_range]
  constructor
  · intro h p hlo hhi
    have := h (p - lo) (by omega)
    rwa [Nat.add_sub_cancel' hlo] at this
  · intro h k hk
    exact h _ (by omega) (by omega)

/-- WF1 to WF5 as facts about positions (R66). -/
structure Artifact.Playable (a : Artifact) : Prop where
  indexDense : a.indexTable.dense = true
  count : a.wordCount = a.indexTable.length
  nonempty : 1 ≤ a.wordCount
  frameDense : a.frameTable.dense = true
  zeroFrame : a.frameTable.read 0 = some 0
  frames : ∀ p w, a.indexTable.read p = some w → flagOf w = false → a.frameFits (lo12Of w).toNat = true
  runs : ∀ p w, a.indexTable.read p = some w → flagOf w = true →
    (lo12Of w).toNat + lengthOf (hi3Of w) ≤ p ∧
      a.literalsIn (lo12Of w).toNat ((lo12Of w).toNat + lengthOf (hi3Of w)) = true
  loopOuterPos : 1 ≤ a.loopOuter.toNat
  loopOuterLe : a.loopOuter.toNat ≤ a.wordCount
  loopInnerLt : a.loopInner.toNat < a.loopSegmentEnd.toNat
  loopSegmentEndLe : a.loopSegmentEnd.toNat ≤ a.loopOuter.toNat
  loopLiterals : a.literalsIn a.loopInner.toNat a.loopSegmentEnd.toNat = true

theorem Artifact.playable {maxLen : Nat} {a : Artifact} (h : a.wfDefined maxLen = true) : a.Playable := by
  simp only [Artifact.wfDefined, Artifact.wf1, Artifact.wf2, Artifact.wf3, Artifact.wf4, Artifact.wf5, Bool.and_eq_true,
    decide_eq_true_eq, List.all_eq_true, List.mem_range] at h
  obtain ⟨⟨⟨⟨⟨⟨⟨hd, hc⟩, h1⟩, -⟩, ⟨⟨⟨hfd, -⟩, -⟩, hz⟩⟩, h3⟩, h4⟩, ⟨⟨⟨hl1, hl2⟩, hl3⟩, hl4⟩, hl5⟩ := h
  have hlt : ∀ p w, a.indexTable.read p = some w → p < a.wordCount := by
    intro p w hr
    rw [hc]
    exact (Memory.read_isSome_of_dense hd p).mp (by rw [hr]; rfl)
  refine ⟨hd, hc, h1, hfd, hz, ?_, ?_, hl1, hl2, hl3, hl4, hl5⟩
  · intro p w hr hf
    have := h3 p (hlt p w hr)
    simpa [Artifact.wf3At, hr, hf] using this
  · intro p w hr hf
    have := h4 p (hlt p w hr)
    simpa [Artifact.wf4At, hr, hf] using this

/-- A position of the stream has a word (WF1). -/
theorem Artifact.Playable.word {a : Artifact} (h : a.Playable) {p : Nat} (hp : p < a.wordCount) :
    ∃ w, a.indexTable.read p = some w :=
  Option.isSome_iff_exists.mp ((Memory.read_isSome_of_dense h.indexDense p).mpr (h.count ▸ hp))

/-- A position with a word lies in the stream (WF1). -/
theorem Artifact.Playable.lt_of_word {a : Artifact} (h : a.Playable) {p : Nat} {w : IndexWord}
    (hr : a.indexTable.read p = some w) : p < a.wordCount := by
  rw [h.count]
  exact (Memory.read_isSome_of_dense h.indexDense p).mp (by rw [hr]; rfl)

/-- The table of a well-formed artifact reads as the list of its words (WF1). -/
theorem Artifact.Playable.read_words {a : Artifact} (h : a.Playable) (p : Nat) : a.indexTable.read p = a.words[p]? :=
  Memory.read_of_dense h.indexDense p

theorem Artifact.Playable.words_length {a : Artifact} (h : a.Playable) : a.words.length = a.wordCount := by
  rw [h.count, Artifact.words, List.length_map]

/-- The first word is a literal: a back-reference's run has no room before it (WF4). -/
theorem Artifact.Playable.first_literal {a : Artifact} (h : a.Playable) {w : IndexWord}
    (hr : a.indexTable.read 0 = some w) : flagOf w = false := by
  cases hf : flagOf w
  · rfl
  · have := (h.runs 0 w hr hf).1
    simp only [lengthOf] at this
    omega

/-! ## Fetches that complete -/

/-- Reading a word of the stream (R52). -/
theorem indexRead_of_word {s : State} (h : s.artifact.Playable) {p : BitVec 16} {w : IndexWord}
    (hr : s.artifact.indexTable.read p.toNat = some w) : indexRead s p = .ok w :=
  indexRead_eq_ok.mpr ⟨h.lt_of_word hr, hr⟩

/-- With no segment in flight and `outer` in the stream, FETCH.OUTER opens a segment of literals that ends at or before the new `outer`
(R121 to R123, WF4). -/
theorem outerEffect_of_playable {s : State} (h : s.artifact.Playable) (he : s.inner = s.segmentEnd)
    (ho : s.outer.toNat < s.artifact.wordCount) :
    ∃ u, OuterEffect s u ∧ u.outer.toNat = s.outer.toNat + 1 ∧ u.inner.toNat < u.segmentEnd.toNat ∧
      u.segmentEnd.toNat ≤ u.outer.toNat ∧ s.artifact.literalsIn u.inner.toNat u.segmentEnd.toNat = true := by
  obtain ⟨w, hw⟩ := h.word ho
  have hr := indexRead_of_word h hw
  have hN : s.artifact.wordCount < 2 ^ 16 := s.artifact.streamLength.isLt
  have hlt : s.outer.toNat + 1 < 2 ^ 16 := by omega
  have hs := toNat_succ hlt
  cases hf : flagOf w
  · have hi : (s.outer + 1 - 1).toNat = s.outer.toNat := by rw [BitVec.add_sub_cancel]
    refine ⟨_, .literal w he hr hf hlt, ?_⟩
    simp only [State.setCursors_outer, State.setCursors_inner, State.setCursors_segmentEnd, hs, hi]
    refine ⟨trivial, by omega, by omega, Artifact.literalsIn_eq_true.mpr fun p h1 h2 => ?_⟩
    obtain rfl : p = s.outer.toNat := by omega
    exact Artifact.literalAt_eq_true.mpr ⟨w, hw, hf⟩
  · obtain ⟨hle, hlit⟩ := h.runs _ _ hw hf
    have hst : ((lo12Of w).setWidth 16).toNat = (lo12Of w).toNat := by
      have := (lo12Of w).isLt
      simp only [BitVec.toNat_setWidth]; omega
    refine ⟨_, .backref w he hr hf hlt hle, ?_⟩
    simp only [State.setCursors_outer, State.setCursors_inner, State.setCursors_segmentEnd, hs, hst, runEnd_toNat]
    exact ⟨trivial, by simp only [lengthOf]; omega, by omega, hlit⟩

/-- Every frame a literal selects lies in FRAME with all its payload nibbles (WF3). -/
theorem Artifact.Playable.frame {a : Artifact} (h : a.Playable) {p : Nat} {w : IndexWord}
    (hr : a.indexTable.read p = some w) (hf : flagOf w = false) :
    ∃ hd ns, a.frameTable.read (lo12Of w).toNat = some hd ∧ ns.length = payloadNibbles hd ∧
      NibblesAt a.frameTable (2 * ((lo12Of w).toNat + 1)) ns := by
  have hfit := h.frames p w hr hf
  unfold Artifact.frameFits at hfit
  split at hfit
  · next hd hh =>
    rw [decide_eq_true_eq] at hfit
    obtain ⟨ns, hl, hn⟩ := exists_nibblesAt a.frameTable (2 * ((lo12Of w).toNat + 1)) (payloadNibbles hd) fun i hi =>
      (Memory.read_isSome_of_dense h.frameDense _).mpr (by unfold frameLen at hfit; omega)
    exact ⟨hd, ns, hh, hl, hn⟩
  · cases hfit

/-- On a well-formed artifact a fetch tick completes once FETCH.OUTER has left a segment of literals, and steps past the first of them
(R124, R140, WF3). -/
theorem tick_of_playable {s u : State} (h : s.artifact.Playable) (hd : s.delay = 0) (hp : s.parity = .low)
    (hu : OuterEffect s.clearEvents u) {x : IndexWord} (hx : s.artifact.indexTable.read u.inner.toNat = some x)
    (hf : flagOf x = false) :
    ∃ t, beforeWrap s = .next t ∧ tick s = .next (finishTick t) ∧ t.outer = u.outer ∧ t.inner = u.inner + 1 ∧ t.segmentEnd = u.segmentEnd ∧
      t.delay = delayOf (hi3Of x) ∧ t.parity = .low ∧ t.artifact = s.artifact ∧ t.inputs = s.inputs := by
  have ha : u.artifact = s.artifact := by rw [hu.spec.2]; rfl
  have hin : u.inputs = s.inputs := by rw [hu.spec.2]; rfl
  have hpu : u.parity = .low := by rw [hu.spec.2]; exact hp
  obtain ⟨hd', ns, hh, hl, hn⟩ := h.frame hx hf
  have hb := beforeWrap_of_fetch hd hp hu (indexRead_of_word h hx) hf hh hl hn
  exact ⟨_, hb, by rw [tick_eq_beforeWrap, hb, andThen_next], rfl, rfl, rfl, rfl, hpu, ha, hin⟩

end Sys2Proof.Machine
end

