-- ==== Sys2Proof/Laws/Pass.lean ====
section
/-! SUPPORT. A pass over the stream, one word at a time: what the decoder has still to play before it comes to the loop point (R126 to R133). -/

namespace Sys2Proof.Machine

/-- The words between two cursors and then the stream from a third on: what a decoder with these cursors has still to play (R126, R130). -/
def Artifact.rest (a : Artifact) (outer inner segmentEnd : Nat) : List IndexWord :=
  (a.words.drop inner).take (segmentEnd - inner) ++ (a.words.drop outer).flatMap (expandWord a.words)

/-- The words a decoder at cursors in a segment has still to play begin with the one at `inner` (R124). -/
theorem Artifact.rest_cons {a : Artifact} {o i e : Nat} {x : IndexWord} (hx : a.words[i]? = some x) (hi : i < e) :
    a.rest o i e = x :: a.rest o (i + 1) e := by
  obtain ⟨hlen, hge⟩ := List.getElem?_eq_some_iff.mp hx
  rw [Artifact.rest, List.drop_eq_getElem_cons hlen, hge, show e - i = (e - (i + 1)) + 1 by omega]
  rfl

/-- A word stands for at least one word (R75, R130). -/
theorem expandWord_ne_nil {a : Artifact} (hpl : a.Playable) {p : Nat} {w : IndexWord} (hw : a.words[p]? = some w) :
    expandWord a.words w ≠ [] := by
  unfold expandWord
  split
  · next hf =>
    have hr := (hpl.runs p w (by rw [hpl.read_words]; exact hw) hf).1
    have hp := (List.getElem?_eq_some_iff.mp hw).1
    intro h
    have := congrArg List.length h
    simp only [List.length_take, List.length_drop, List.length_nil, lengthOf] at this
    simp only [lengthOf] at hr
    omega
  · exact List.cons_ne_nil _ _

/-- Before the end of the stream there is something left to play. -/
theorem Artifact.rest_ne_nil {a : Artifact} (hpl : a.Playable) {o i e : Nat} (ho : o < a.wordCount) : a.rest o i e ≠ [] := by
  have hlen : o < a.words.length := by rw [hpl.words_length]; exact ho
  intro h
  have h' := (List.append_eq_nil_iff.mp h).2
  rw [List.drop_eq_getElem_cons hlen, List.flatMap_cons] at h'
  exact expandWord_ne_nil hpl (List.getElem?_eq_getElem hlen) (List.append_eq_nil_iff.mp h').1

/-- Nothing follows the last word of a segment whose compressed word was the last. -/
theorem Artifact.rest_end {a : Artifact} (hpl : a.Playable) {o i : Nat} (ho : a.wordCount ≤ o) : a.rest o i i = [] := by
  rw [Artifact.rest, Nat.sub_self, List.take_zero, List.nil_append,
    List.drop_eq_nil_of_le (by rw [hpl.words_length]; exact ho), List.flatMap_nil]

/-- The cursors of a decoder that has the words `ws` still to play, in a segment of literals whose compressed word is the last of the stream only
where one word of it is left. -/
structure Remaining (a : Artifact) (ws : List IndexWord) (s : State) : Prop where
  artifact : s.artifact = a
  inputs : s.inputs = []
  parity : s.parity = .low
  outerLe : s.outer.toNat ≤ a.wordCount
  last : s.outer.toNat = a.wordCount → s.segmentEnd.toNat = s.inner.toNat + 1
  segmentEndLe : s.segmentEnd.toNat ≤ s.outer.toNat
  innerLe : s.inner.toNat ≤ s.segmentEnd.toNat
  words : a.rest s.outer.toNat s.inner.toNat s.segmentEnd.toNat = ws
  literals : a.literalsIn s.inner.toNat s.segmentEnd.toNat = true

/-- FETCH.OUTER's turn leaves the words still to play as they are, and a segment in flight (R121 to R123, R126). -/
theorem Remaining.outer {a : Artifact} {ws : List IndexWord} {s : State} (hpl : a.Playable) (h7 : a.wf7 = true)
    (h : Remaining a ws s) : ∃ u, OuterEffect s.clearEvents u ∧ Remaining a ws u ∧ u.inner.toNat < u.segmentEnd.toNat := by
  obtain ⟨rfl, inp, par, out, last, se, ile, rem, lit⟩ := h
  by_cases he : s.inner = s.segmentEnd
  · have out : s.outer.toNat < s.artifact.wordCount := by
      rcases Nat.lt_or_eq_of_le out with h | h
      · exact h
      · have := last h; rw [he] at this; omega
    obtain ⟨w, hw⟩ := hpl.word out
    obtain ⟨u, hu, h1, h2, h3, h4⟩ := outerEffect_of_playable (s := s.clearEvents) hpl he out
    have h1 : u.outer.toNat = s.outer.toNat + 1 := h1
    have hgw : s.artifact.words[s.outer.toNat]? = some w := by rw [← hpl.read_words]; exact hw
    obtain ⟨hlen, hge⟩ := List.getElem?_eq_some_iff.mp hgw
    have hrem : expandWord s.artifact.words w ++ (s.artifact.words.drop (s.outer.toNat + 1)).flatMap (expandWord s.artifact.words) = ws := by
      rw [← rem, Artifact.rest, he, Nat.sub_self, List.take_zero, List.nil_append, List.drop_eq_getElem_cons hlen,
        List.flatMap_cons, hge]
    have hfr := hu.spec.2
    have hseg : (flagOf w = false → u.segmentEnd.toNat = u.inner.toNat + 1) ∧
        (s.artifact.words.drop u.inner.toNat).take (u.segmentEnd.toNat - u.inner.toNat) = expandWord s.artifact.words w := by
      have same : ∀ {w'}, indexRead s.clearEvents s.clearEvents.outer = .ok w' → w' = w := fun hr => by
        have := (indexRead_eq_ok.mp hr).2
        rw [State.clearEvents_artifact, State.clearEvents_outer, hw] at this
        exact (Option.some.inj this).symm
      cases hu with
      | skipped hne => exact absurd he hne
      | literal w' _ hr hf hlt =>
        obtain rfl := same hr
        have e1 := toNat_succ hlt
        have e2 : (s.outer + 1 - 1).toNat = s.outer.toNat := by rw [BitVec.add_sub_cancel]
        simp only [State.setCursors_segmentEnd, State.setCursors_inner, State.clearEvents_outer] at e1 ⊢
        rw [e1, e2, Nat.add_sub_cancel_left, List.drop_eq_getElem_cons hlen, hge]
        exact ⟨fun _ => rfl, by simp [expandWord, hf]⟩
      | backref w' _ hr hf hlt hle =>
        obtain rfl := same hr
        have e : ((lo12Of w').setWidth 16).toNat = (lo12Of w').toNat := by
          have := (lo12Of w').isLt
          simp only [BitVec.toNat_setWidth]; omega
        simp only [State.setCursors_segmentEnd, State.setCursors_inner, runEnd_toNat, e, Nat.add_sub_cancel_left]
        exact ⟨fun h => by rw [hf] at h; (cases h), by simp [expandWord, hf]⟩
    refine ⟨u, hu, ⟨by rw [hfr]; rfl, by rw [hfr]; exact inp, by rw [hfr]; exact par, by omega, ?_, h3, Nat.le_of_lt h2, ?_, h4⟩, h2⟩
    · intro hN
      simp only [Artifact.wf7, Bool.and_eq_true] at h7
      obtain ⟨w', hw', hf⟩ := Artifact.literalAt_eq_true.mp h7.2
      rw [show s.artifact.wordCount - 1 = s.outer.toNat by omega, hw] at hw'
      cases hw'
      exact hseg.1 hf
    · rw [Artifact.rest, hseg.2, h1, hrem]
  · refine ⟨_, .skipped he, ⟨rfl, inp, par, out, last, se, ile, rem, lit⟩, ?_⟩
    have : s.inner.toNat ≠ s.segmentEnd.toNat := fun h => he (BitVec.eq_of_toNat_eq h)
    show s.inner.toNat < s.segmentEnd.toNat
    omega

/-- The fetch tick of a word: it is played, WRAP finds the end of the stream exactly if no word is left, and then the cursors are the loop
triple (R124, R127, R128). -/
theorem Remaining.fetch {a : Artifact} {ws : List IndexWord} {s : State} (hpl : a.Playable) (h7 : a.wf7 = true)
    (h : Remaining a ws s) (hd : s.delay = 0) :
    ∃ x rest u t, ws = x :: rest ∧ playedWord s = some x ∧ beforeWrap s = .next u ∧ step s = .next t ∧ t = finishTick u ∧
      (u.outer = a.streamLength ↔ rest = []) ∧ t.artifact = a ∧ t.inputs = [] ∧ t.parity = .low ∧
      t.delay.toNat + 1 = ticksOf x ∧
      (rest = [] → t.outer = a.loopOuter ∧ t.inner = a.loopInner ∧ t.segmentEnd = a.loopSegmentEnd) ∧
      (rest ≠ [] → Remaining a rest t ∧ t.outer ≠ a.streamLength) := by
  have ha := h.artifact
  have hin := h.inputs
  have hpar := h.parity
  obtain ⟨v, hv, hr, hlt⟩ := h.outer hpl h7
  obtain ⟨x, hx, hf⟩ := Artifact.literalAt_eq_true.mp (Artifact.literalsIn_eq_true.mp hr.literals _ (Nat.le_refl _) hlt)
  subst ha
  obtain ⟨u, hb, ht, h1, h2, h3, h4, h5, h6, h8⟩ := tick_of_playable hpl hd hpar hv hx hf
  have hinc : (v.inner + 1).toNat = v.inner.toNat + 1 := toNat_succ (by have := v.segmentEnd.isLt; omega)
  have hpop : s.popInput = s := by
    show { s with inputs := s.inputs.tail } = s
    rw [hin, List.tail_nil, ← hin]
  have hstep : step s = .next (finishTick u) := by
    rw [step_of_tick (by simp [State.nextInput, hin]), hpop, ht]
  have hdel : (finishTick u).delay.toNat + 1 = ticksOf x := by
    rw [finishTick_delay_toNat, h4, delayOf_toNat]; rfl
  have hws := hr.words
  rw [Artifact.rest_cons (by rw [← hpl.read_words]; exact hx) hlt] at hws
  have hend : u.outer = s.artifact.streamLength ↔
      s.artifact.rest v.outer.toNat (v.inner.toNat + 1) v.segmentEnd.toNat = [] := by
    rw [h1]
    constructor
    · intro hN
      have hN := congrArg BitVec.toNat hN
      rw [hr.last hN]
      exact Artifact.rest_end hpl (Nat.le_of_eq hN.symm)
    · intro hnil
      rcases Nat.lt_or_eq_of_le hr.outerLe with hlt' | heq
      · exact absurd hnil (Artifact.rest_ne_nil hpl hlt')
      · exact BitVec.eq_of_toNat_eq heq
  have hfr := finishTick_frame u
  refine ⟨x, _, u, _, hws.symm, by rw [playedWord_of_outer hd hv]; exact hx, hb, hstep, rfl, hend, by rw [hfr]; exact h6,
    by rw [hfr]; exact h8.trans hin, by rw [hfr]; exact h5, hdel, ?_, ?_⟩
  · intro hnil
    rw [hfr, wrap, if_pos (by rw [h6]; exact hend.mpr hnil), h6]
    exact ⟨rfl, rfl, rfl⟩
  · intro hne
    have hN : u.outer ≠ u.artifact.streamLength := by rw [h6]; exact fun h => hne (hend.mp h)
    rw [show wrap u = u from if_neg hN] at hfr
    rw [hfr]
    refine ⟨⟨h6, h8.trans hin, h5, ?_, ?_, ?_, ?_, ?_, ?_⟩, by rw [← h6]; exact hN⟩
    · rw [h1]; exact hr.outerLe
    · intro hN'
      rw [← h6] at hN'
      exact absurd (BitVec.eq_of_toNat_eq hN') hN
    · rw [h1, h3]; exact hr.segmentEndLe
    · rw [h2, h3, hinc]; exact hlt
    · rw [h1, h2, h3, hinc]
    · rw [h2, h3, hinc, Artifact.literalsIn_eq_true]
      exact fun p hlo hhi => Artifact.literalsIn_eq_true.mp hr.literals p (by omega) hhi

/-- A word and all of its ticks: it is played in the first and nothing in the others; WRAP finds the end of the stream in the first if no word
is left, and otherwise in none; then the next word is due, or the decoder stands at the loop point (R127, R130, R141). -/
theorem Remaining.word {a : Artifact} {ws : List IndexWord} {s : State} (hpl : a.Playable) (h7 : a.wf7 = true)
    (h : Remaining a ws s) (hd : s.delay = 0) :
    ∃ x rest, ws = x :: rest ∧ playedWord s = some x ∧
      (∀ j, j < ticksOf x → ∃ t u, runFor j s = .next t ∧ (0 < j → playedWord t = none) ∧ beforeWrap t = .next u ∧
        step t = .next (finishTick u) ∧ (rest ≠ [] → u.outer ≠ a.streamLength) ∧
        (rest = [] → j = 0 → u.outer = a.streamLength)) ∧
      ∃ v, runFor (ticksOf x) s = .next v ∧ (rest = [] → atLoopPoint a v) ∧
        (rest ≠ [] → Remaining a rest v ∧ v.delay = 0) := by
  obtain ⟨x, rest, u, t, hws, hp, hb, hs, htu, hend, ha, hin, hpar, hdel, hnil, hcons⟩ := h.fetch hpl h7 hd
  have hfix : t.outer = t.artifact.streamLength →
      t.outer = t.artifact.loopOuter ∧ t.inner = t.artifact.loopInner ∧ t.segmentEnd = t.artifact.loopSegmentEnd := by
    rw [ha]
    intro hN
    by_cases hr : rest = []
    · exact hnil hr
    · exact absurd hN (hcons hr).2
  have hidle : ∀ j, j ≤ t.delay.toNat → ∃ v, runFor (j + 1) s = .next v ∧ v.delay.toNat = t.delay.toNat - j ∧
      v = { t with delay := v.delay, events := v.events } := by
    intro j hj
    obtain ⟨v, hv, h1, h2⟩ := runFor_idle hin hfix hj
    exact ⟨v, by rw [runFor, hs, andThen_next]; exact hv, h1, h2⟩
  refine ⟨x, rest, hws, hp, ?_, ?_⟩
  · intro j hj
    cases j with
    | zero =>
      exact ⟨s, u, rfl, fun h => absurd h (Nat.lt_irrefl 0), hb, htu ▸ hs, fun hr hN => hr (hend.mp hN), fun hr _ => hend.mpr hr⟩
    | succ j =>
      obtain ⟨v, hv, h1, h2⟩ := hidle j (by omega)
      have hvd : v.delay ≠ 0 := by
        intro h0
        rw [h0, show (0 : BitVec 4).toNat = 0 from rfl] at h1
        omega
      have hvin : v.inputs = [] := by rw [h2]; exact hin
      have hpop : v.popInput = v := by
        show { v with inputs := v.inputs.tail } = v
        rw [hvin, List.tail_nil, ← hvin]
      refine ⟨v, v.clearEvents, hv, fun _ => if_neg hvd, if_neg hvd, ?_, fun hr => ?_, fun _ h0 => absurd h0 (Nat.succ_ne_zero j)⟩
      · rw [step_of_tick (by simp [State.nextInput, hvin]), hpop, tick_idle hvd]
      · rw [h2]; exact (hcons hr).2
  · obtain ⟨v, hv, h1, h2⟩ := hidle t.delay.toNat (Nat.le_refl _)
    have hv0 : v.delay = 0 := BitVec.eq_of_toNat_eq (by rw [h1, Nat.sub_self]; rfl)
    refine ⟨v, by rw [← hdel]; exact hv, fun hr => ?_, fun hr => ?_⟩
    · obtain ⟨e1, e2, e3⟩ := hnil hr
      exact ⟨by rw [h2]; exact ha, by rw [h2]; exact hin, hv0, by rw [h2]; exact hpar, by rw [h2]; exact e1, by rw [h2]; exact e2,
        by rw [h2]; exact e3⟩
    · obtain ⟨e, -⟩ := hcons hr
      rw [h2]
      exact ⟨⟨e.artifact, e.inputs, e.parity, e.outerLe, e.last, e.segmentEndLe, e.innerLe, e.words, e.literals⟩, hv0⟩

end Sys2Proof.Machine
end

