-- ==== Sys2Proof/Laws/PerInstr.lean ====
section
/-! SUPPORT. For each instruction: its encoding is a word of its own row of spec/opcode_table.json. -/

namespace Sys2Proof.Laws

/-- A row of the opcode table: its width in bits, and the value its masked bits have. -/
structure OpcodeRow where
  width : Nat
  mask : Nat
  value : Nat
  deriving DecidableEq, Repr

/-- The row of an instruction. -/
def opcodeRow : Instr → OpcodeRow
  | .lit _ _ => ⟨16, 0x8000, 0x0000⟩
  | .bref _ _ => ⟨16, 0x8000, 0x8000⟩
  | .wrTone0 => ⟨8, 0x01, 0x01⟩
  | .wrTone1 => ⟨8, 0x02, 0x02⟩
  | .wrTone2 => ⟨8, 0x04, 0x04⟩
  | .wrNoise => ⟨8, 0x08, 0x08⟩
  | .wrVol0 => ⟨8, 0x10, 0x10⟩
  | .wrVol1 => ⟨8, 0x20, 0x20⟩
  | .wrVol2 => ⟨8, 0x40, 0x40⟩
  | .wrVol3 => ⟨8, 0x80, 0x80⟩
  | .zero => ⟨8, 0xFF, 0x00⟩
  | .dly _ => ⟨16, 0x8FFF, 0x0000⟩

/-- A code is a word of a row. -/
def matchesRow : Code → OpcodeRow → Prop
  | .word w, r => r.width = 16 ∧ w &&& BitVec.ofNat 16 r.mask = BitVec.ofNat 16 r.value
  | .header h, r => r.width = 8 ∧ h &&& BitVec.ofNat 8 r.mask = BitVec.ofNat 8 r.value

/-- Masking a word of INDEX to bit 15 gives its flag (R73). -/
theorem and_bit15 (w : IndexWord) : w &&& 0x8000#16 = if flagOf w then 0x8000#16 else 0#16 := by
  have h : (0x8000#16) = BitVec.twoPow 16 15 := by decide
  rw [h, BitVec.and_twoPow]; rfl

namespace TableRow

/-- An instruction's encoding is a word of its own row (R71, R72, R76, R82, R83). -/
def Statement (i : Instr) : Prop := matchesRow (encode i) (opcodeRow i)

theorem lit (dly : BitVec 3) (off : BitVec 12) : Statement (.lit dly off) :=
  ⟨rfl, by rw [opcodeRow]; exact (and_bit15 _).trans (by rw [flagOf_literalWord]; rfl)⟩

theorem bref (len : BitVec 3) (start : BitVec 12) : Statement (.bref len start) :=
  ⟨rfl, by rw [opcodeRow]; exact (and_bit15 _).trans (by rw [flagOf_backrefWord]; rfl)⟩

theorem wrTone0 : Statement .wrTone0 := ⟨rfl, by decide⟩
theorem wrTone1 : Statement .wrTone1 := ⟨rfl, by decide⟩
theorem wrTone2 : Statement .wrTone2 := ⟨rfl, by decide⟩
theorem wrNoise : Statement .wrNoise := ⟨rfl, by decide⟩
theorem wrVol0 : Statement .wrVol0 := ⟨rfl, by decide⟩
theorem wrVol1 : Statement .wrVol1 := ⟨rfl, by decide⟩
theorem wrVol2 : Statement .wrVol2 := ⟨rfl, by decide⟩
theorem wrVol3 : Statement .wrVol3 := ⟨rfl, by decide⟩
theorem zero : Statement .zero := ⟨rfl, by decide⟩
theorem dly (dly : BitVec 3) : Statement (.dly dly) := ⟨rfl, by revert dly; decide⟩

end TableRow

end Sys2Proof.Laws
end

