-- ==== Sys2Proof/Laws/Producer.lean ====
section
/-! SUPPORT. The producer's parts: what INTERN can do, delay chains, the first longest of a scan, and what expansion keeps when the stream grows
(R130, R172 to R178). -/

namespace Sys2Proof.Machine

/-! ## The dictionary -/

/-- The two things INTERN can do when it completes: find the bytes, or store them at the end of the table within its limit (R172, R174). -/
theorem intern_cases {bytes : List Byte} {d d' : Dictionary} {o : Nat} (h : intern bytes d = .ok (o, d')) :
    (∃ e, d.lookup bytes = some e ∧ o = e.1 ∧ d' = d) ∨
    (d.lookup bytes = none ∧ o = d.frameTable.length ∧ o + bytes.length ≤ Config.frameTableMax ∧
      d' = ⟨d.frameTable ++ bytes, d.entries ++ [(o, bytes.length)]⟩) := by
  unfold intern at h
  split at h
  · next e he => cases h; exact .inl ⟨e, he, rfl, rfl⟩
  · next he =>
    simp only at h
    split at h
    · cases h
    · next hle => cases h; exact .inr ⟨he, rfl, Nat.le_of_not_lt hle, rfl⟩

/-- INTERN of bytes the dictionary has (R172). -/
theorem intern_of_lookup {bytes : List Byte} {d : Dictionary} {e : Nat × Nat} (h : d.lookup bytes = some e) :
    intern bytes d = .ok (e.1, d) := by rw [intern, h]

/-- What the scan finds is an entry whose frame is the bytes (R172). -/
theorem Dictionary.lookup_some {d : Dictionary} {bytes : List Byte} {e : Nat × Nat} (h : d.lookup bytes = some e) :
    e.2 = bytes.length ∧ d.frameAt e = bytes := by
  simpa using List.find?_some h

/-- A dictionary that has grown scans its old entries as before, and then the new ones (R172). -/
theorem Dictionary.lookup_append {d : Dictionary} (h : d.entriesFit) (more : List Byte) (es : List (Nat × Nat)) (bytes : List Byte) :
    Dictionary.lookup ⟨d.frameTable ++ more, d.entries ++ es⟩ bytes =
      ((d.lookup bytes).or (Dictionary.lookup ⟨d.frameTable ++ more, es⟩ bytes)) := by
  have hat : ∀ e ∈ d.entries, Dictionary.frameAt ⟨d.frameTable ++ more, d.entries ++ es⟩ e = d.frameAt e := by
    intro e he
    have := h e he
    rw [Dictionary.frameAt, Dictionary.frameAt, List.drop_append_of_le_length (by omega),
      List.take_append_of_le_length (by rw [List.length_drop]; omega)]
  rw [Dictionary.lookup, List.find?_append]
  congr 1
  rw [Dictionary.lookup]
  revert hat
  generalize d.entries = l
  intro hat
  induction l with
  | nil => rfl
  | cons e l ih =>
    simp only [List.find?_cons, hat e (List.mem_cons_self ..)]
    split <;> first | rfl | exact ih fun e' he' => hat e' (List.mem_cons_of_mem _ he')

/-! ## Delays -/

theorem totalTicks_cons (w : IndexWord) (ws : List IndexWord) : totalTicks (w :: ws) = ticksOf w + totalTicks ws := by
  simp [totalTicks]

theorem ticksOf_literalWord (d : BitVec 3) (o : BitVec 12) : ticksOf (literalWord d o) = d.toNat + 1 := by simp [ticksOf]

/-- A word stands for 1 to 8 ticks (R74). -/
theorem ticksOf_bounds (w : IndexWord) : 1 ≤ ticksOf w ∧ ticksOf w ≤ 8 := by
  have := (hi3Of w).isLt
  unfold ticksOf; omega

/-- The rest of a delay chain: pure-delay literals of 8 ticks but for the last, which sum to the delay that remained (R176). -/
theorem emitTail_spec (fuel r : Nat) (h1 : 1 ≤ r) (h2 : r ≤ fuel) :
    totalTicks (emitTail fuel r) = r ∧ (∀ x ∈ emitTail fuel r, lo12Of x = 0 ∧ flagOf x = false) ∧
      (emitTail fuel r).length = (r + 7) / 8 ∧ emitTail fuel r ≠ [] ∧ ∀ x ∈ (emitTail fuel r).dropLast, ticksOf x = 8 := by
  induction fuel generalizing r with
  | zero => omega
  | succ n ih =>
    unfold emitTail
    split
    · obtain ⟨a, b, c, ne, e⟩ := ih (r - 8) (by omega) (by omega)
      refine ⟨?_, ?_, by simp only [List.length_cons, c]; omega, by simp, ?_⟩
      · rw [totalTicks_cons, a, ticksOf_literalWord, show (7 : BitVec 3).toNat = 7 from rfl]; omega
      · intro x hx
        rcases List.mem_cons.mp hx with rfl | hx
        · exact ⟨lo12Of_literalWord _ _, flagOf_literalWord _ _⟩
        · exact b x hx
      · rw [List.dropLast_cons_of_ne_nil ne]
        intro x hx
        rcases List.mem_cons.mp hx with rfl | hx
        · rw [ticksOf_literalWord]; rfl
        · exact e x hx
    · refine ⟨?_, ?_, by simp only [List.length_singleton]; omega, by simp, by simp⟩
      · rw [totalTicks_cons, ticksOf_literalWord, BitVec.toNat_ofNat]; simp only [totalTicks, List.map_nil, List.sum_nil]; omega
      · intro x hx
        rw [List.mem_singleton.mp hx]
        exact ⟨lo12Of_literalWord _ _, flagOf_literalWord _ _⟩

/-! ## The scan for a match -/

/-- A scan that replaces its best only by a strictly better candidate ends with the first of the best (R178). -/
theorem scan_first_best (f : Nat → Nat) (n : Nat) :
    let r := (List.range n).foldl (fun (best : Nat × Nat) s => if best.1 < f s then (f s, s) else best) (0, 0)
    (∀ s, s < n → f s ≤ r.1) ∧ (0 < r.1 → r.2 < n ∧ f r.2 = r.1 ∧ ∀ s, s < r.2 → f s < r.1) := by
  induction n with
  | zero => simp
  | succ n ih =>
    simp only [List.range_succ, List.foldl_append, List.foldl_cons, List.foldl_nil]
    generalize (List.range n).foldl (fun (best : Nat × Nat) s => if best.1 < f s then (f s, s) else best) (0, 0) = r at ih
    obtain ⟨a, b⟩ := ih
    have step : ∀ s, s < n + 1 → s < n ∨ s = n := fun s hs => Nat.lt_or_eq_of_le (Nat.lt_succ_iff.mp hs)
    split
    · next h =>
      refine ⟨fun s hs => ?_, fun _ => ⟨Nat.lt_succ_self n, rfl, fun s hs => Nat.lt_of_le_of_lt (a s hs) h⟩⟩
      rcases step s hs with h' | rfl
      · exact Nat.le_of_lt (Nat.lt_of_le_of_lt (a s h') h)
      · exact Nat.le_refl _
    · next h =>
      refine ⟨fun s hs => ?_, fun h0 => ?_⟩
      · rcases step s hs with h' | rfl
        · exact a s h'
        · omega
      · obtain ⟨c, d, e⟩ := b h0
        exact ⟨by omega, d, e⟩

/-! ## Expansion of a growing stream -/

/-- A word whose run lies in the stream stands for the same words after the stream has grown (R130). -/
theorem expandWord_append {out : List IndexWord} {w : IndexWord}
    (h : flagOf w = true → (lo12Of w).toNat + lengthOf (hi3Of w) ≤ out.length) (more : List IndexWord) :
    expandWord (out ++ more) w = expandWord out w := by
  unfold expandWord
  split
  · next hf =>
    have := h hf
    rw [List.drop_append_of_le_length (by omega), List.take_append_of_le_length (by rw [List.length_drop]; omega)]
  · rfl

/-- The length and start a back-reference word holds are the ones it was made from (R72, R75). -/
theorem lengthOf_ofNat {n : Nat} (h1 : 2 ≤ n) (h2 : n ≤ 9) : lengthOf (BitVec.ofNat 3 (n - 2)) = n := by
  simp only [lengthOf, BitVec.toNat_ofNat]; omega

end Sys2Proof.Machine
end

