-- ==== Sys2Proof/Tests/Slice0.lean ====
section
/-! SUPPORT. The model's own tests: the spec's worked encodings and vectors, one step at a time, and for each statement with hypotheses a
state and operands that meet them. Expected values are those of spec/30_encoding.md R92 and spec/95_test_vectors.md, or written out by hand
from the rules named. -/

namespace Sys2Proof.Tests

open Sys2Proof.Machine

/-! ## Helpers -/

/-- The next state of an outcome, if it is one. -/
def nextOf : Result → Option State
  | .next s => some s
  | .fault _ => none
  | .refused _ => none

/-- The fault of an outcome, if it is one. -/
def faultOf : Result → Option Fault
  | .next _ => none
  | .fault f => some f
  | .refused _ => none

/-- Program P1 of 95_test_vectors.md, the source's scenario. -/
def p1 : Artifact := Artifact.ofTables [0x00, 0x01, 0x23, 0x01, 0x10, 0x05] [0x0001, 0x1004] 1 0 1

/-- Program P2: a back-reference, a loop inside it. -/
def p2 : Artifact :=
  Artifact.ofTables [0x00, 0x10, 0x05, 0x10, 0x00, 0x01, 0x23, 0x01] [0x0001, 0x1003, 0x8000, 0x2005] 3 1 2

/-- Program P3: the longest frame, a delay chain, a loop on the last word. -/
def p3 : Artifact :=
  Artifact.ofTables [0x00, 0xFF, 0x23, 0xB1, 0x2A, 0xCD, 0x43, 0x21, 0xF3, 0x80, 0x00] [0x7001, 0x7000, 0x3000, 0x0009] 4 3 4

/-- Program P4: a trailing back-reference (WF7 fails). -/
def p4 : Artifact := Artifact.ofTables [0x00, 0x10, 0x05, 0x10, 0x00] [0x0001, 0x0003, 0x8000] 1 0 1

/-- Program P5: a back-reference that ends at its own position. -/
def p5 : Artifact :=
  Artifact.ofTables [0x00, 0x08, 0x07, 0x90, 0xA3] [0x0001, 0x1003, 0x2001, 0x9000, 0x0000] 1 0 1

/-- A machine between two ticks: an artifact, the three cursors and the delay. -/
def between (a : Artifact) (outer inner segmentEnd : BitVec 16) (delay : BitVec 4) : State :=
  { State.boot a with outer := outer, inner := inner, segmentEnd := segmentEnd, delay := delay }

/-- A machine in a frame: the nibble cursor, over four bytes at the top of the byte cursor's range. -/
def inFrame (bc : BitVec 13) (parity : Parity) : State :=
  { State.boot { Artifact.empty with frameTable := [(8188, 0x21), (8189, 0x43), (8190, 0xF5), (8191, 0x7E)] } with
    bc := bc, parity := parity }

/-- A register state with one field set. -/
def with0 (f : Field) (v : BitVec f.width) : RegState := RegState.zero.set f v

/-! ## WellFormed -/

theorem test_lit_with_offset_zero_is_ill_formed : (Instr.lit 3 0).wellFormed = false := by decide
theorem test_header_ops_empty_is_ill_formed : headerOpsWellFormed [] = false := by decide
theorem test_header_ops_out_of_order_is_ill_formed : headerOpsWellFormed [.wrTone1, .wrTone0] = false := by decide
theorem test_header_ops_twice_is_ill_formed : headerOpsWellFormed [.wrNoise, .wrNoise] = false := by decide
theorem test_header_ops_zero_with_write_is_ill_formed : headerOpsWellFormed [.zero, .wrVol0] = false := by decide
theorem test_header_ops_index_word_is_ill_formed : headerOpsWellFormed [.lit 1 1] = false := by decide
theorem test_header_ops_in_order_is_well_formed : headerOpsWellFormed [.wrTone0, .wrVol3] = true := by decide
theorem test_zero_alone_is_well_formed : headerOpsWellFormed [.zero] = true := by decide

/-! ## Decoding, by words written out from the encodings of R71, R72, R76, R82, R83 (and R92) -/

theorem test_decode_lit : decodeTableWord 16 0b0001000000000100 = some (.lit 1 4) := by decide
theorem test_decode_lit_all_ones : decodeTableWord 16 0b0111111111111111 = some (.lit 7 0xFFF) := by decide
theorem test_decode_bref : decodeTableWord 16 0b1001000100100011 = some (.bref 1 0x123) := by decide
theorem test_decode_bref_longest : decodeTableWord 16 0b1111000000000000 = some (.bref 7 0) := by decide
theorem test_decode_dly : decodeTableWord 16 0b0111000000000000 = some (.dly 7) := by decide
theorem test_decode_wrTone0 : decodeTableWord 8 0b00000001 = some .wrTone0 := by decide
theorem test_decode_wrTone1 : decodeTableWord 8 0b00000010 = some .wrTone1 := by decide
theorem test_decode_wrTone2 : decodeTableWord 8 0b00000100 = some .wrTone2 := by decide
theorem test_decode_wrNoise : decodeTableWord 8 0b00001000 = some .wrNoise := by decide
theorem test_decode_wrVol0 : decodeTableWord 8 0b00010000 = some .wrVol0 := by decide
theorem test_decode_wrVol1 : decodeTableWord 8 0b00100000 = some .wrVol1 := by decide
theorem test_decode_wrVol2 : decodeTableWord 8 0b01000000 = some .wrVol2 := by decide
theorem test_decode_wrVol3 : decodeTableWord 8 0b10000000 = some .wrVol3 := by decide
theorem test_decode_zero : decodeTableWord 8 0b00000000 = some .zero := by decide
theorem test_decode_header_in_bit_order : decodeHeader 0b10001001#8 = [.wrTone0, .wrNoise, .wrVol3] := by decide
/-- R57: an index word stored as bytes is low byte first; the bytes after it are left. -/
theorem test_decode_stored_word : (decodeBytes [0x23, 0x91, 0x55]).toOption = some (.bref 1 0x123, [0x55]) := by decide
theorem test_decode_half_word_is_refused : (decodeBytes [0x23]).toOption = none := by decide
theorem test_decode_other_widths_are_refused : decodeTableWord 24 0 = none := by decide

/-! ## Each instruction: one step of it -/

/-- R122's example: `outer` was 1, the word is `0x1004`. -/
theorem test_lit_at_outer : nextOf (exec (.lit 1 4) (between p1 1 1 1 0)) = some (between p1 2 1 2 0) := by decide
/-- R124's example: `inner` 1, the word is `0x1004`. -/
theorem test_lit_at_inner :
    (nextOf (exec (.lit 1 4) (between p1 2 1 2 0))).map (fun t => (t.inner, t.delay, t.offset)) = some (2, 2, 4) := by decide
/-- R123's example: `0xF000` gives the segment 0 to 9. -/
theorem test_bref_at_outer : nextOf (exec (.bref 7 0) (between p1 9 3 3 0)) = some (between p1 10 0 9 0) := by decide
/-- R123: a run that would end one past the word's own position. -/
theorem test_bref_past_its_position :
    faultOf (exec (.bref 7 0) (between p1 8 3 3 0)) = some (.backrefNotBefore 8 0xF000) := by decide
theorem test_dly_at_outer : nextOf (exec (.dly 7) (between p3 1 1 1 0)) = some (between p3 2 1 2 0) := by decide
theorem test_dly_at_inner :
    (nextOf (exec (.dly 7) (between p3 2 1 2 0))).map (fun t => (t.inner, t.delay, t.offset)) = some (2, 8, 0) := by decide
/-- R147: nibbles 1, 2, 3 of the bytes `21 43`, from the low half: the value ends in the low two bits of the third. -/
theorem test_wrTone0_low :
    (nextOf (exec .wrTone0 (inFrame 8188 .low))).map (fun t => (t.bc, t.parity, t.events, t.shadow)) =
      some (8189, .high, [⟨.tone0, 0x321⟩], with0 .tone0 0x321) := by decide
/-- From the high half: nibbles 2, 3, 4; bits 3:2 of the third are discarded. -/
theorem test_wrTone0_high :
    (nextOf (exec .wrTone0 (inFrame 8188 .high))).map (fun t => (t.bc, t.parity, t.events, t.shadow)) =
      some (8190, .low, [⟨.tone0, 0x032⟩], with0 .tone0 0x032) := by decide
theorem test_wrTone1_low :
    (nextOf (exec .wrTone1 (inFrame 8189 .low))).map (fun t => (t.bc, t.parity, t.events)) =
      some (8190, .high, [⟨.tone1, 0x143⟩]) := by decide
theorem test_wrTone1_high :
    (nextOf (exec .wrTone1 (inFrame 8189 .high))).map (fun t => (t.bc, t.parity, t.events)) =
      some (8191, .low, [⟨.tone1, 0x354⟩]) := by decide
theorem test_wrTone2_low :
    (nextOf (exec .wrTone2 (inFrame 8190 .low))).map (fun t => (t.bc, t.parity, t.events)) =
      some (8191, .high, [⟨.tone2, 0x2F5⟩]) := by decide
/-- The third nibble of a tone lies past the end of FRAME (U2). -/
theorem test_wrTone2_outside :
    faultOf (exec .wrTone2 { State.boot p5 with bc := 4 }) = some (.frameOutOfRange 5) := by decide
/-- Vector E1: the header itself lies past the end of FRAME, so tick 0 faults. -/
theorem test_header_past_the_table :
    faultOf (step (State.boot (Artifact.ofTables [0x00, 0x08, 0x07, 0x90, 0xA3] [0x0005] 1 0 1))) = some (.frameOutOfRange 5) := by
  decide
theorem test_wrNoise_low :
    (nextOf (exec .wrNoise (inFrame 8191 .low))).map (fun t => (t.bc, t.parity, t.events)) =
      some (8191, .high, [⟨.noise, 0xE⟩]) := by decide
theorem test_wrNoise_high :
    (nextOf (exec .wrNoise (inFrame 8190 .high))).map (fun t => (t.bc, t.parity, t.events)) =
      some (8191, .low, [⟨.noise, 0xF⟩]) := by decide
theorem test_wrVol0_low :
    (nextOf (exec .wrVol0 (inFrame 8188 .low))).map (fun t => (t.bc, t.parity, t.events, t.shadow)) =
      some (8188, .high, [⟨.volume0, 1⟩], with0 .volume0 1) := by decide
theorem test_wrVol1_high :
    (nextOf (exec .wrVol1 (inFrame 8188 .high))).map (fun t => (t.bc, t.parity, t.events, t.shadow)) =
      some (8189, .low, [⟨.volume1, 2⟩], with0 .volume1 2) := by decide
theorem test_wrVol2_low :
    (nextOf (exec .wrVol2 (inFrame 8189 .low))).map (fun t => (t.bc, t.parity, t.events, t.shadow)) =
      some (8189, .high, [⟨.volume2, 3⟩], with0 .volume2 3) := by decide
theorem test_wrVol3_high :
    (nextOf (exec .wrVol3 (inFrame 8189 .high))).map (fun t => (t.bc, t.parity, t.events, t.shadow)) =
      some (8190, .low, [⟨.volume3, 4⟩], with0 .volume3 4) := by decide
theorem test_zero : nextOf (exec .zero (inFrame 8189 .high)) = some (inFrame 8189 .high) := by decide

/-! ## Single ticks of the spec's programs -/

/-- The cursors, the delay and the events a step leaves. -/
def row (r : Result) : Option (BitVec 16 × BitVec 16 × BitVec 16 × BitVec 4 × List SinkEvent) :=
  (nextOf r).map fun t => (t.outer, t.inner, t.segmentEnd, t.delay, t.events)

/-- P1, tick 0. -/
theorem test_p1_tick0 : row (step (State.boot p1)) = some (1, 1, 1, 0, [⟨.tone0, 0x123⟩]) := by decide
/-- P1, tick 1: the last word wraps in its fetch tick. -/
theorem test_p1_tick1 : row (step (between p1 1 1 1 0)) = some (1, 0, 1, 1, [⟨.volume0, 5⟩]) := by decide
/-- P2, tick 3: the back-reference and its first word in one tick. -/
theorem test_p2_tick3 : row (step (between p2 2 2 2 0)) = some (3, 1, 2, 0, [⟨.volume0, 5⟩]) := by decide
/-- P2, tick 4: the second word of the run, no read at `outer`. -/
theorem test_p2_tick4 : row (step (between p2 3 1 2 0)) = some (3, 2, 2, 1, [⟨.volume0, 0⟩]) := by decide
/-- P2, tick 7: an idle tick. -/
theorem test_p2_tick7 : row (step (between p2 3 1 2 2)) = some (3, 1, 2, 1, []) := by decide
/-- P3, tick 0: eight events in field order. -/
theorem test_p3_tick0 : row (step (State.boot p3)) = some (1, 1, 1, 7,
    [⟨.tone0, 0x123⟩, ⟨.tone1, 0x2AB⟩, ⟨.tone2, 0x3CD⟩, ⟨.noise, 4⟩, ⟨.volume0, 1⟩, ⟨.volume1, 2⟩, ⟨.volume2, 3⟩,
      ⟨.volume3, 0xF⟩]) := by decide
/-- P3, tick 8: a pure-delay word. -/
theorem test_p3_tick8 : row (step (between p3 1 1 1 0)) = some (2, 2, 2, 7, []) := by decide
/-- P3, tick 21: `loop_outer = stream_length`, so the wrap fires in every tick. -/
theorem test_p3_tick21 : row (step (between p3 4 3 4 0)) = some (4, 3, 4, 0, [⟨.volume3, 0⟩]) := by decide
/-- P4, tick 2: the wrap overwrites the run of a trailing back-reference. -/
theorem test_p4_tick2 : row (step (between p4 2 2 2 0)) = some (1, 0, 1, 0, [⟨.volume0, 5⟩]) := by decide
/-- P5, tick 6: a run that ends at the back-reference's own position. -/
theorem test_p5_tick6 : row (step (between p5 3 3 3 0)) = some (4, 1, 3, 0, [⟨.noise, 7⟩]) := by decide
/-- P5, tick 7: two events in one tick, in field order. -/
theorem test_p5_tick7 : row (step (between p5 4 1 3 0)) = some (4, 2, 3, 1, [⟨.volume0, 3⟩, ⟨.volume3, 0xA⟩]) := by decide
/-- From reset with nothing loaded the first tick reads outside the stream (R201; log entry 23). -/
theorem test_reset_has_no_program : faultOf (step State.reset) = some (.indexOutOfRange 0) := by decide

/-! ## withFetchWord: the very next step runs the instruction (log entry 23) -/

theorem test_fetch_lit : row (step (State.reset.withFetchWord 16 0x7FFF)) = some (1, 1, 1, 7, []) := by decide
theorem test_fetch_bref : row (step (State.reset.withFetchWord 16 0x9123)) = some (0x127, 0x124, 0x126, 0, []) := by decide
theorem test_fetch_header : row (step (State.reset.withFetchWord 8 0xFF)) = some (1, 1, 1, 0,
    [⟨.tone0, 0⟩, ⟨.tone1, 0⟩, ⟨.tone2, 0⟩, ⟨.noise, 0⟩, ⟨.volume0, 0⟩, ⟨.volume1, 0⟩, ⟨.volume2, 0⟩, ⟨.volume3, 0⟩]) := by decide

/-! ## The synthesizer and the producer -/

/-- R100's example. -/
theorem test_synth_tone0 : synthFrame .zero (with0 .tone0 0x123) = [0x01, 0x23, 0x01] := by decide
/-- R102 and R105's example: tone2 = 0x001 and noise = 0xF. -/
theorem test_synth_even_payload : synthFrame .zero ((with0 .tone2 1).set .noise 0xF) = [0x0C, 0x01, 0xF0] := by decide
/-- R176's examples. -/
theorem test_emit_long : (emit 0x123 20).toOption = some [0x7123, 0x7000, 0x3000] ∧ (emit 0x123 9).toOption = some [0x7123, 0x0000] ∧
    (emit 0x123 16).toOption = some [0x7123, 0x7000] ∧ (emit 0x123 8).toOption = some [0x7123] ∧ (emit 0x123 0).toOption = none := by
  decide
/-- R178's example: starts 0 and 1 tie, the lower wins. -/
theorem test_match_tie : matchRun [1, 1, 1, 9] [1, 1, 7] = (2, 0) := by decide
/-- R180 and R182's example. -/
theorem test_compress : (compress 4096 [0x0001, 0x1003, 0x0001, 0x1003, 0x2005] 3).toOption =
    some ([0x0001, 0x1003, 0x8000, 0x2005], ⟨3, 1, 2⟩) := by decide
/-- R184: a loop offset at the end of the stream; a stream over the limit. -/
theorem test_compress_failures : (compress 4096 [0x0001] 1).toOption = none ∧ (compress 1 [0x0001, 0x0002] 0).toOption = none := by
  decide
/-- The source's scenario, built. -/
theorem test_build_p1 :
    (build 4096 [⟨[⟨.tone0, 0x123⟩], 1⟩, ⟨[⟨.volume0, 5⟩], 2⟩] none).toOption = some p1 := by decide
/-- R66: the programs' well-formedness, as 95_test_vectors.md says it. -/
theorem test_programs_well_formed : p1.wf 4096 = true ∧ p2.wf 4096 = true ∧ p3.wf 4096 = true ∧ p5.wf 4096 = true := by decide
theorem test_p4_fails_wf7 : p4.wfDefined 4096 = true ∧ p4.wf6 = true ∧ p4.wf7 = false := by decide
/-- A self-covering back-reference, a literal off the frame table, a wrong length: refused by WF4, WF3, WF1. -/
theorem test_ill_formed_artifacts :
    (Artifact.ofTables [0x00] [0x0000, 0x8000, 0x0000] 1 0 1).wf4 = false ∧
    (Artifact.ofTables [0x00, 0x01] [0x0001] 1 0 1).wf3 = false ∧
    ({ p1 with streamLength := 3 }).wf1 4096 = false ∧ (Artifact.ofTables [0x01] [0x0000] 1 0 1).wf2 = false ∧
    ({ p1 with loopInner := 1 }).wf5 = false := by decide

/-! ## Witnesses: for each statement with hypotheses, a state and operands that meet them, at the edges of their ranges -/

theorem witness_DecodeOfEncode : (Instr.lit 7 0xFFF).wellFormed = true ∧ (Instr.lit 0 1).wellFormed = true ∧
    (Instr.bref 0 0).wellFormed = true ∧ (Instr.dly 7).wellFormed = true ∧ Instr.zero.wellFormed = true := by decide

theorem witness_HeaderOperationsDecodeBack :
    headerOpsWellFormed [.zero] = true ∧ headerOpsWellFormed [.wrVol3] = true ∧
    headerOpsWellFormed [.wrTone0, .wrTone1, .wrTone2, .wrNoise, .wrVol0, .wrVol1, .wrVol2, .wrVol3] = true := by decide

/-- A literal and a back-reference at `outer`; the run ends exactly at the back-reference's own position. -/
theorem witness_FetchOuterExpands :
    ((between p5 4 4 4 0).inner = (between p5 4 4 4 0).segmentEnd ∧
      (indexRead (between p5 4 4 4 0) 4).toOption = some 0x0000 ∧ (0x0000 : IndexWord).getLsbD 15 = false) ∧
    ((between p5 3 3 3 0).inner = (between p5 3 3 3 0).segmentEnd ∧
      (indexRead (between p5 3 3 3 0) 3).toOption = some 0x9000 ∧ (0x9000 : IndexWord).getLsbD 15 = true ∧
      (lo12Of 0x9000).toNat + (hi3Of 0x9000).toNat + 2 ≤ (3 : BitVec 16).toNat) := by decide

/-- The first position outside the stream, a back-reference at `inner`, and the last literal. -/
theorem witness_FetchInnerExtracts :
    ((between p5 5 5 6 0).inner ≠ (between p5 5 5 6 0).segmentEnd ∧ p5.wordCount ≤ (5 : BitVec 16).toNat) ∧
    ((between p5 5 3 6 0).inner ≠ (between p5 5 3 6 0).segmentEnd ∧
      (indexRead (between p5 5 3 6 0) 3).toOption = some 0x9000 ∧ (0x9000 : IndexWord).getLsbD 15 = true) ∧
    ((between p5 5 4 5 0).inner ≠ (between p5 5 4 5 0).segmentEnd ∧
      (indexRead (between p5 5 4 5 0) 4).toOption = some 0x0000 ∧ (0x0000 : IndexWord).getLsbD 15 = false) := by decide

theorem witness_FetchOuterLeavesASegment : nextOf (fetchOuter (between p5 3 3 3 0)) = some (between p5 4 0 3 0) ∧
    nextOf (fetchOuter (between p5 4 4 4 0)) = some (between p5 5 4 5 0) := by decide

/-- The last `outer` that can advance. -/
theorem witness_LitAtOuter :
    (between p1 0xFFFE 7 7 0).inner = (between p1 0xFFFE 7 7 0).segmentEnd ∧ (between p1 0xFFFE 7 7 0).outer ≠ 0xFFFF := by decide

/-- The last `inner` that can advance. -/
theorem witness_LitAtInner :
    (between p1 0 0xFFFE 0xFFFF 0).inner ≠ (between p1 0 0xFFFE 0xFFFF 0).segmentEnd ∧
      (between p1 0 0xFFFE 0xFFFF 0).inner ≠ 0xFFFF := by decide

/-- A run that ends exactly at `outer`, and the same run one position earlier. -/
theorem witness_BrefAtOuter :
    ((between p1 4104 7 7 0).inner = (between p1 4104 7 7 0).segmentEnd ∧ (between p1 4104 7 7 0).outer ≠ 0xFFFF ∧
      (4095 : BitVec 12).toNat + (7 : BitVec 3).toNat + 2 ≤ (between p1 4104 7 7 0).outer.toNat) ∧
    ((between p1 4103 7 7 0).inner = (between p1 4103 7 7 0).segmentEnd ∧ (between p1 4103 7 7 0).outer ≠ 0xFFFF ∧
      (between p1 4103 7 7 0).outer.toNat < (4095 : BitVec 12).toNat + (7 : BitVec 3).toNat + 2) := by decide

theorem witness_DlyIsALiteral :
    ((between p1 0xFFFE 7 7 0).inner = (between p1 0xFFFE 7 7 0).segmentEnd ∧ (between p1 0xFFFE 7 7 0).outer ≠ 0xFFFF) ∧
    ((between p1 0 0xFFFE 0 0).inner ≠ (between p1 0 0xFFFE 0 0).segmentEnd ∧ (between p1 0 0xFFFE 0 0).inner ≠ 0xFFFF) := by decide

theorem witness_BackrefAtInner : (between p5 5 3 5 0).inner ≠ (between p5 5 3 5 0).segmentEnd := by decide

/-- A cursor at its top, in each of the two readings. -/
theorem witness_CursorOverflow :
    ((between p1 0xFFFF 7 7 0).inner = (between p1 0xFFFF 7 7 0).segmentEnd ∧ (between p1 0xFFFF 7 7 0).outer = 0xFFFF) ∧
    ((between p1 0 0xFFFF 0 0).inner ≠ (between p1 0 0xFFFF 0 0).segmentEnd ∧ (between p1 0 0xFFFF 0 0).inner = 0xFFFF) := by decide

theorem witness_FetchOutsideTheStream :
    ((between p5 5 5 5 0).inner = (between p5 5 5 5 0).segmentEnd ∧ p5.wordCount ≤ (between p5 5 5 5 0).outer.toNat) ∧
    p5.wordCount ≤ (between p5 1 5 9 0).inner.toNat := by decide

/-- The highest byte cursor a tone write can start from, in either half. -/
theorem witness_ToneWrites :
    ((inFrame 8190 .low).artifact.frameTable.read 8190 = some 0xF5 ∧ (inFrame 8190 .low).artifact.frameTable.read 8191 = some 0x7E ∧
      (inFrame 8190 .low).parity = .low ∧ (inFrame 8190 .low).bc.toNat + 1 < 8192) ∧
    ((inFrame 8189 .high).artifact.frameTable.read 8189 = some 0x43 ∧ (inFrame 8189 .high).artifact.frameTable.read 8190 = some 0xF5 ∧
      (inFrame 8189 .high).parity = .high ∧ (inFrame 8189 .high).bc.toNat + 2 < 8192) := by decide

/-- The highest byte cursor a nibble write, and a nibble read, can start from, in either half. -/
theorem witness_NibbleWrites :
    ((inFrame 8191 .low).artifact.frameTable.read 8191 = some 0x7E ∧ (inFrame 8191 .low).parity = .low) ∧
    ((inFrame 8190 .high).artifact.frameTable.read 8190 = some 0xF5 ∧ (inFrame 8190 .high).parity = .high ∧
      (inFrame 8190 .high).bc.toNat + 1 < 8192) := by decide

theorem witness_NextNibble :
    (nextNibble (inFrame 8191 .low)).toOption = some (0xE, inFrame 8191 .high) ∧
    (nextNibble (inFrame 8190 .high)).toOption = some (0xF, inFrame 8191 .low) ∧
    (inFrame 8187 .low).artifact.frameTable.read 8187 = none := by decide

theorem witness_Align : (inFrame 8191 .low).parity = .low ∧
    ((inFrame 8190 .high).parity = .high ∧ (inFrame 8190 .high).bc.toNat + 1 < 8192) := by decide

theorem witness_SinkWrite : Field.volume0 ≠ (⟨.tone0, 5⟩ : SinkEvent).target := by decide

theorem witness_FieldWriteFrame : Instr.wrTone0.field? = some .tone0 ∧ (nextOf (exec .wrTone0 (inFrame 8188 .low))).isSome = true ∧
    Instr.wrVol3.field? = some .volume3 ∧ (nextOf (exec .wrVol3 (inFrame 8190 .high))).isSome = true := by decide

theorem witness_IndexWordFrame : (Instr.bref 7 0).field? = none ∧ (nextOf (exec (.bref 7 0) (between p1 9 3 3 0))).isSome = true ∧
    Instr.zero.field? = none ∧ (nextOf (exec .zero (between p1 9 3 3 0))).isSome = true := by decide

theorem witness_NoInstructionWritesTheTables : (nextOf (exec .wrTone1 (inFrame 8189 .high))).isSome = true := by decide

/-- A payload byte and a frame header, each just past the end of P5's five bytes. -/
theorem witness_PayloadOutside : (Instr.wrNoise.field? = some .noise ∧
    ({ State.boot p5 with bc := 5 }).artifact.frameTable.read 5 = none) ∧
    ({ State.boot p5 with offset := 5 }).artifact.frameTable.read 5 = none := by decide

/-- A frame whose last byte is the last byte of the table. -/
theorem witness_UnpackConsumes : ({ State.boot p5 with offset := 3 }).parity = .low ∧
    ({ State.boot p5 with offset := 3 }).artifact.frameTable.read 3 = some 0x90 ∧ frameLen 0x90 = 2 ∧
    (∀ k, k < 2 → (({ State.boot p5 with offset := 3 }).artifact.frameTable.read (3 + k)).isSome = true) := by decide

theorem witness_UnpackEmits : ({ State.boot p5 with offset := 3 }).artifact.frameTable.read 3 = some 0x90 ∧
    (nextOf (unpack { State.boot p5 with offset := 3 })).isSome = true := by decide

theorem witness_UnpackInvertsSynth : ({ State.boot p1 with offset := 1 }).parity = .low ∧
    ∀ (k : Nat) (b : Byte), (synthFrame .zero (with0 .tone0 0x123))[k]? = some b →
      ({ State.boot p1 with offset := 1 }).artifact.frameTable.read ((1 : BitVec 12).toNat + k) = some b := by
  have hs : synthFrame .zero (with0 .tone0 0x123) = [0x01, 0x23, 0x01] := by decide
  refine ⟨rfl, fun k b h => ?_⟩
  rw [hs] at h
  match k, h with
  | 0, h => cases h; decide
  | 1, h => cases h; decide
  | 2, h => cases h; decide
  | k + 3, h => simp at h

theorem witness_EqualDiffs :
    RegState.zero.diff (with0 .tone0 5) = (with0 .noise 3).diff ((with0 .noise 3).set .tone0 5) := by decide

theorem witness_SynthStep : ({ State.boot p1 with inputs := [.synth (with0 .noise 3), .tick] }).inputs =
    .synth (with0 .noise 3) :: [.tick] := by decide

theorem witness_StepRunsTheWordAtOuter : (between p5 3 3 3 0).nextInput = .tick ∧ (between p5 3 3 3 0).delay = 0 ∧
    (between p5 3 3 3 0).inner = (between p5 3 3 3 0).segmentEnd ∧ (indexRead (between p5 3 3 3 0) 3).toOption = some 0x9000 := by decide

theorem witness_StepRunsTheWordAtInner : (between p5 4 1 3 0).nextInput = .tick ∧ (between p5 4 1 3 0).delay = 0 ∧
    (between p5 4 1 3 0).inner ≠ (between p5 4 1 3 0).segmentEnd ∧ (indexRead (between p5 4 1 3 0) 1).toOption = some 0x1003 := by decide

theorem witness_UnpackRuns : ({ State.boot p5 with offset := 1 }).artifact.frameTable.read 1 = some 0x08 := by decide

/-- An idle tick inside the stream and one at its end. -/
theorem witness_IdleTick :
    ((between p1 1 1 1 7).nextInput = .tick ∧ (between p1 1 1 1 7).delay ≠ 0 ∧ (between p1 1 1 1 7).outer ≠ p1.streamLength) ∧
    ((between p3 4 3 4 1).nextInput = .tick ∧ (between p3 4 3 4 1).delay ≠ 0 ∧ (between p3 4 3 4 1).outer = p3.streamLength) := by decide

theorem witness_Wrap : (between p1 2 2 2 0).outer = p1.streamLength ∧ (between p1 1 1 1 0).outer ≠ p1.streamLength := by decide

/-- The last word of P1 (a literal) and of P4 (a back-reference). -/
theorem witness_LastWordWraps :
    ((between p1 1 1 1 0).nextInput = .tick ∧ (between p1 1 1 1 0).delay = 0 ∧
      (between p1 1 1 1 0).inner = (between p1 1 1 1 0).segmentEnd ∧ (between p1 1 1 1 0).outer.toNat + 1 = p1.wordCount ∧
      playedWord (between p1 1 1 1 0) = some 0x1004 ∧ (nextOf (step (between p1 1 1 1 0))).isSome = true) ∧
    ((between p4 2 2 2 0).nextInput = .tick ∧ (between p4 2 2 2 0).delay = 0 ∧
      (between p4 2 2 2 0).inner = (between p4 2 2 2 0).segmentEnd ∧ (between p4 2 2 2 0).outer.toNat + 1 = p4.wordCount ∧
      playedWord (between p4 2 2 2 0) = some 0x0001 ∧ (nextOf (step (between p4 2 2 2 0))).isSome = true) := by decide

theorem witness_TickEvents : (State.boot p3).nextInput = .tick ∧ (nextOf (step (State.boot p3))).isSome = true := by decide

theorem witness_TransientCursors : (State.boot p3).nextInput = .tick := by decide

/-- A tick, and an input that changes nothing but `prev`. -/
theorem witness_NoStepWrites : (nextOf (step (State.boot p3))).isSome = true ∧
    ({ State.boot p3 with inputs := [.synthReset] }).nextInput = .synthReset ∧
    (nextOf (step { State.boot p3 with inputs := [.reset] })).isSome = true := by decide

theorem witness_QuietState : QuietState (between p3 1 1 1 7) ∧ (nextOf (step (between p3 1 1 1 7))).isSome = true := by decide

/-- The invariant at reset, in a run, and with `outer` resting at the end of the stream (R131). -/
theorem witness_Running : Running 4096 (State.boot p5) ∧ Running 4096 (between p5 4 1 3 0) ∧ Running 4096 (between p3 4 3 4 0) := by
  decide

theorem witness_BootOfWellFormed : p3.wfDefined 4096 = true ∧ p3.wfDefined 4 = true ∧ p3.wfDefined 3 = false := by decide

theorem witness_AtMostSeven : Running 4096 (between p3 1 1 1 7) ∧ (between p3 1 1 1 7).inputs = [] := by decide

/-- P3, tick 0: a word of 8 ticks. -/
theorem witness_AWordOccupiesItsDelay : (State.boot p3).inputs = [] ∧ playedWord (State.boot p3) = some 0x7001 ∧
    (nextOf (step (State.boot p3))).isSome = true ∧ ticksOf 0x7001 = 8 := by decide

theorem witness_ResetInputs : ({ State.boot p3 with inputs := [.reset] }).inputs = .reset :: [] ∧
    ({ State.boot p3 with inputs := [.synthReset, .tick] }).inputs = .synthReset :: [.tick] := by decide

theorem witness_FirstTick : p1.wfDefined 4096 = true ∧ 2 ≤ p1.wordCount := by decide

/-- P5: the first and the last word of the expansion, which has seven; an idle tick (the second of the word at 1); the tick of the last word,
12, which wraps, and one before it, which does not. -/
theorem witness_FirstPass : p5.wfDefined 4096 = true ∧ p5.wf7 = true ∧
    ((expand p5.words)[0]? = some 0x0001 ∧ (expand p5.words)[6]? = some 0x0000 ∧ (expand p5.words)[7]? = none) ∧
    (2 < totalTicks (expand p5.words) ∧ ∀ k, k < (expand p5.words).length → 2 ≠ totalTicks ((expand p5.words).take k)) ∧
    (12 ≤ totalTicks (expand p5.words).dropLast ∧ 12 = totalTicks (expand p5.words).dropLast ∧
      11 ≠ totalTicks (expand p5.words).dropLast) := by decide

/-- A loop point inside a back-reference (P2) and on the last word of a delay chain (P3), whose loop plays one word for ever (R131). -/
theorem witness_LoopTriple : (p2.wf 4096 = true ∧ atLoopPoint p2 (between p2 3 1 2 0) ∧ p2.loopWords = [0x1003, 0x2005]) ∧
    (p3.wf 4096 = true ∧ atLoopPoint p3 (between p3 4 3 4 0) ∧ p3.loopWords = [0x0009]) := by decide

/-- For both statements about COMPRESS: a loop point inside a back-reference, and on a literal. -/
theorem witness_Compression :
    compress 4096 [0x0001, 0x1003, 0x0001, 0x1003, 0x2005] 3 = .ok ([0x0001, 0x1003, 0x8000, 0x2005], ⟨3, 1, 2⟩) ∧
    compress 4 [0x0001, 0x1003, 0x0001, 0x1003, 0x2005] 4 = .ok ([0x0001, 0x1003, 0x8000, 0x2005], ⟨4, 3, 4⟩) := ⟨rfl, rfl⟩

theorem witness_Match : 0 < (matchRun [1, 1, 1, 9] [1, 1, 7]).1 ∧ 3 < [1, 1, 1, 9].length := by decide

theorem witness_RunLength : runLength 9 [1, 2, 3] [1, 2, 4] = 2 ∧ 2 < 9 ∧ [1, 2, 3][2]? = some 3 ∧ [1, 2, 4][2]? = some 4 := by
  decide

theorem witness_EmitChain : 1 ≤ 1 ∧ 1 ≤ 8 ∧ 1 ≤ 9 := by decide

/-- A miss that stores a frame, and a hit; two frames interned after the miss, one of them new. -/
theorem witness_Intern : dictInit.entriesFit ∧ dictInit.frameTable.length ≤ 4096 ∧
    intern [0x08, 0x07] dictInit = .ok (1, ⟨[0x00, 0x08, 0x07], [(0, 1), (1, 2)]⟩) ∧ intern [0x00] dictInit = .ok (0, dictInit) ∧
    internAll [[0x00], [0x10, 0x05]] ⟨[0x00, 0x08, 0x07], [(0, 1), (1, 2)]⟩ =
      .ok ⟨[0x00, 0x08, 0x07, 0x10, 0x05], [(0, 1), (1, 2), (3, 2)]⟩ :=
  ⟨by decide, by decide, rfl, rfl, rfl⟩

theorem witness_BuiltArtifacts : 32768 ≤ 32768 ∧
    build 32768 [⟨[⟨.tone0, 0x123⟩], 1⟩, ⟨[⟨.volume0, 5⟩], 2⟩] none = .ok p1 := ⟨by decide, rfl⟩

end Sys2Proof.Tests
end

/-! PROOFS. What holds between ticks (R36), what a tick never reads (R29), and the state after reset (R35). -/

namespace Sys2Proof.Machine

/-! ## What the end of a tick keeps -/

@[simp] theorem finishTick_parity (s : State) : (finishTick s).parity = s.parity := by rw [finishTick_frame]
@[simp] theorem finishTick_artifact (s : State) : (finishTick s).artifact = s.artifact := by rw [finishTick_frame]
@[simp] theorem finishTick_outer (s : State) : (finishTick s).outer = (wrap s).outer := by rw [finishTick_frame]
@[simp] theorem finishTick_inner (s : State) : (finishTick s).inner = (wrap s).inner := by rw [finishTick_frame]
@[simp] theorem finishTick_segmentEnd (s : State) : (finishTick s).segmentEnd = (wrap s).segmentEnd := by
  rw [finishTick_frame]

/-- A literal's delay is at most 8 (R74). -/
theorem delayOf_le (d : BitVec 3) : (delayOf d).toNat ≤ 8 := by
  have := d.isLt
  rw [delayOf_toNat]; omega

/-! ## The quiet state -/

/-- DELAY.DEC brings a delay of at most 8 to at most 7, so the end of a tick makes the state quiet (R153). -/
theorem quietState_finishTick {s : State} (hp : s.parity = .low) (hd : s.delay.toNat ≤ 8)
    (hf : s.artifact.frameTable.wf = true) (hi : s.artifact.indexTable.wf = true) : QuietState (finishTick s) :=
  ⟨by rw [finishTick_parity, hp], by rw [finishTick_delay_toNat]; omega, by rwa [finishTick_artifact],
    by rwa [finishTick_artifact]⟩

/-- A tick keeps the quiet state: an idle tick touches neither parity nor tables, a fetch tick ends in ALIGN and sets a delay of at most 8
(R141, R150). -/
theorem tick_keeps_quietState {s t : State} (hq : QuietState s) (h : tick s = .next t) : QuietState t := by
  obtain ⟨hp, hd, hf, hi⟩ := hq
  cases tick_effect h with
  | idle hne => exact quietState_finishTick hp (by rw [State.clearEvents_delay]; omega) hf hi
  | fetch h0 u hu x hx hlit hdr hh es hes bc =>
    have ha : u.artifact = s.artifact := by rw [hu.spec.2]; rfl
    exact quietState_finishTick rfl (delayOf_le _) (ha ▸ hf) (ha ▸ hi)

/-- Settles O44: of the four inputs only a tick and the decoder's reset touch parity or delay. -/
theorem everyStepKeepsTheQuietState : Obligations.EveryStepKeepsTheQuietState := by
  intro s t hq h
  have hpop : QuietState s.popInput := hq
  obtain ⟨-, -, htables⟩ := hq
  unfold step at h
  cases hin : s.nextInput with
  | tick => rw [hin] at h; exact tick_keeps_quietState hpop h
  | synth cur => rw [hin] at h; cases h; exact hpop
  | reset => rw [hin] at h; cases h; exact ⟨rfl, Nat.zero_le 7, htables⟩
  | synthReset => rw [hin] at h; cases h; exact hpop

/-- Settles O45: the fields of `State.reset`, and its empty tables. -/
theorem resetIsQuiet : Obligations.ResetIsQuiet := ⟨rfl, Nat.zero_le 7, reset_tables_wf⟩

/-! ## The invariant of a machine that plays a well-formed artifact -/

/-- What WRAP asks of the cursors on a well-formed artifact: `Running` without its clause about the end of the stream, which WRAP itself
brings about, and with a delay that DELAY.DEC still has to count (R36, R127, R153). -/
structure ReadyToWrap (maxLen : Nat) (s : State) : Prop where
  wf : s.artifact.wfDefined maxLen = true
  parity : s.parity = .low
  delay : s.delay.toNat ≤ 8
  outer : s.outer.toNat ≤ s.artifact.wordCount
  inner : s.inner.toNat ≤ s.segmentEnd.toNat
  segmentEnd : s.segmentEnd.toNat ≤ s.outer.toNat
  literals : s.artifact.literalsIn s.inner.toNat s.segmentEnd.toNat = true

/-- A running machine is ready to wrap. -/
theorem readyToWrap_of_running {maxLen : Nat} {s : State} (h : Running maxLen s) : ReadyToWrap maxLen s := by
  obtain ⟨hwf, hp, hd, ho, -, hi, hse, hl⟩ := h
  exact ⟨hwf, hp, by omega, ho, hi, hse, hl⟩

/-- WRAP and DELAY.DEC bring the invariant about: at the end of the stream by WF5, elsewhere by leaving the cursors (R127). -/
theorem ReadyToWrap.running_finishTick {maxLen : Nat} {s : State} (h : ReadyToWrap maxLen s) : Running maxLen (finishTick s) := by
  have hpl := Artifact.playable h.wf
  have hd := h.delay
  simp only [Running, finishTick_artifact, finishTick_parity, finishTick_outer, finishTick_inner, finishTick_segmentEnd,
    finishTick_delay_toNat]
  refine ⟨h.wf, h.parity, by omega, ?_⟩
  by_cases hend : s.outer = s.artifact.streamLength
  · have hw : wrap s = s.setCursors s.artifact.loopOuter s.artifact.loopInner s.artifact.loopSegmentEnd := if_pos hend
    rw [hw]
    exact ⟨hpl.loopOuterLe, fun _ => ⟨rfl, hpl.loopInnerLt⟩, hpl.loopInnerLt.le, hpl.loopSegmentEndLe, hpl.loopLiterals⟩
  · have hw : wrap s = s := if_neg hend
    rw [hw]
    exact ⟨h.outer, fun hc => absurd (BitVec.eq_of_toNat_eq hc) hend, h.inner, h.segmentEnd, h.literals⟩

/-- With the cursors and the delay at 0 a well-formed artifact meets the invariant: its stream is not empty (R35, WF1). -/
theorem running_of_zero {maxLen : Nat} {s : State} (hwf : s.artifact.wfDefined maxLen = true) (hp : s.parity = .low)
    (hd : s.delay = 0) (ho : s.outer = 0) (hi : s.inner = 0) (hse : s.segmentEnd = 0) : Running maxLen s := by
  have hne := (Artifact.playable hwf).nonempty
  have hz : (0 : BitVec 16).toNat = 0 := rfl
  simp only [Running, hwf, hp, hd, ho, hi, hse, hz]
  exact ⟨trivial, trivial, Nat.zero_le 7, by omega, by omega, le_rfl, le_rfl, rfl⟩

/-- In a running machine FETCH.OUTER's turn completes and leaves a segment of literals with a word to play (R121 to R123, R126). -/
theorem outerEffect_of_running {maxLen : Nat} {s : State} (h : Running maxLen s) :
    ∃ u, OuterEffect s u ∧ u.outer.toNat ≤ s.artifact.wordCount ∧ u.inner.toNat < u.segmentEnd.toNat ∧
      u.segmentEnd.toNat ≤ u.outer.toNat ∧ s.artifact.literalsIn u.inner.toNat u.segmentEnd.toNat = true := by
  obtain ⟨hwf, -, -, ho, hend, hi, hse, hl⟩ := h
  by_cases he : s.inner = s.segmentEnd
  · have hlt : s.outer.toNat < s.artifact.wordCount := by
      refine Nat.lt_of_le_of_ne ho fun hc => ?_
      have := (hend hc).2
      rw [he] at this
      omega
    obtain ⟨u, hu, hou, hin, hseg, hlit⟩ := outerEffect_of_playable (Artifact.playable hwf) he hlt
    exact ⟨u, hu, by omega, hin, hseg, hlit⟩
  · exact ⟨s, .skipped he, ho, Nat.lt_of_le_of_ne hi fun hc => he (BitVec.eq_of_toNat_eq hc), hse, hl⟩

/-- A fetch tick of a running machine plays the first literal of its segment and is ready to wrap (R124, R140). -/
theorem fetchTick_of_running {maxLen : Nat} {s : State} (h : Running maxLen s) (hd : s.delay = 0) :
    ∃ t, tick s = .next (finishTick t) ∧ ReadyToWrap maxLen t := by
  obtain ⟨u, hu, hou, hin, hseg, hlit⟩ := outerEffect_of_running (s := s.clearEvents) h
  obtain ⟨hwf, hp, -⟩ := h
  rw [State.clearEvents_artifact] at hou hlit
  have hlits := Artifact.literalsIn_eq_true.mp hlit
  obtain ⟨x, hx, hf⟩ := Artifact.literalAt_eq_true.mp (hlits _ le_rfl hin)
  obtain ⟨t, -, ht, hto, hti, hts, htd, htp, hta, -⟩ := tick_of_playable (Artifact.playable hwf) hd hp hu hx hf
  have hsucc : (u.inner + 1).toNat = u.inner.toNat + 1 := toNat_succ (by have := u.segmentEnd.isLt; omega)
  refine ⟨t, ht, ⟨by rwa [hta], htp, by rw [htd]; exact delayOf_le _, by rwa [hto, hta], ?_, by rwa [hts, hto], ?_⟩⟩
  · rw [hti, hts, hsucc]; omega
  · rw [hti, hts, hta, hsucc]
    exact Artifact.literalsIn_eq_true.mpr fun p hlo hhi => hlits p (by omega) hhi

/-- A tick of a running machine completes and keeps the invariant (R36, R140). -/
theorem tick_of_running {maxLen : Nat} {s : State} (h : Running maxLen s) : ∃ t, tick s = .next t ∧ Running maxLen t := by
  by_cases hd : s.delay = 0
  · obtain ⟨t, ht, hr⟩ := fetchTick_of_running h hd
    exact ⟨_, ht, hr.running_finishTick⟩
  · have hclear : Running maxLen s.clearEvents := h
    exact ⟨_, tick_idle hd, (readyToWrap_of_running hclear).running_finishTick⟩

/-- Settles O46: a tick completes and keeps the invariant, a SYNTH and the synthesizer's reset do not touch it, the decoder's reset zeroes the
cursors. -/
theorem wellFormedArtifactNeverFaults : Obligations.WellFormedArtifactNeverFaults := by
  intro maxLen s h
  have hpop : Running maxLen s.popInput := h
  obtain ⟨hwf, -⟩ := h
  unfold step
  cases s.nextInput with
  | tick => exact tick_of_running hpop
  | synth cur => exact ⟨_, rfl, hpop⟩
  | reset => exact ⟨_, rfl, running_of_zero hwf rfl rfl rfl rfl rfl⟩
  | synthReset => exact ⟨_, rfl, hpop⟩

/-- Settles O47: after reset the cursors are 0, and the stream is not empty. -/
theorem bootOfWellFormedArtifactIsRunning : Obligations.BootOfWellFormedArtifactIsRunning := fun _ _ hwf =>
  running_of_zero hwf rfl rfl rfl rfl rfl

/-- Settles O50: each value is a field of `State.reset`. -/
theorem resetValues : Obligations.ResetValues := fun _ => ⟨rfl, rfl, rfl, rfl, rfl, rfl, rfl, rfl, rfl⟩

/-! ## A word of INDEX in each of its readings -/

/-- Running the word at a position: the read, then the meaning bit 15 selects (R52, R89). -/
theorem runWord_eq (s : State) (p : BitVec 16) : runWord p s = settle (indexRead s p >>= fun w =>
    if flagOf w then runBackref (hi3Of w) (lo12Of w) s else runLiteral (hi3Of w) (lo12Of w) s) := by
  unfold runWord
  cases indexRead s p with
  | error f => rfl
  | ok w =>
    rw [except_bind_ok]
    cases hf : flagOf w
    · exact exec_decodeWord_literal hf s
    · exact exec_decodeWord_backref hf s

/-- With no segment in flight a word runs in its reading at `outer` (R73, R121). -/
theorem runWord_atOuter {s : State} (he : s.inner = s.segmentEnd) (p : BitVec 16) :
    runWord p s = settle (indexRead s p >>= fun w =>
      if flagOf w then expandBackref (hi3Of w) (lo12Of w) s else expandLiteral s) := by
  simp only [runWord_eq, runBackref, runLiteral, if_pos he]

/-- With a segment in flight a word runs in its reading at `inner` (R124, R125). -/
theorem runWord_atInner {s : State} (hne : s.inner ≠ s.segmentEnd) (p : BitVec 16) :
    runWord p s = settle (indexRead s p >>= fun w =>
      if flagOf w then .error (.backrefAtInner s.inner (backrefWord (hi3Of w) (lo12Of w)))
      else playLiteral (hi3Of w) (lo12Of w) s) := by
  simp only [runWord_eq, runBackref, runLiteral, if_neg hne]

/-- An update of an operation's answer is an update of its outcome. -/
theorem settle_map (e : Except Fault State) (f : State → State) :
    settle (e.map f) = andThen (settle e) fun t => .next (f t) := by
  cases e <;> rfl

/-! ## The transient cursors -/

/-- The state with other values in the two transient fields (R29; log entry 4). -/
def State.withTransient (s : State) (bc : BitVec 13) (offset : BitVec 12) : State := { s with bc := bc, offset := offset }

section Transient

variable (s : State) (bc : BitVec 13) (offset : BitVec 12)

/-- A literal read at `outer` carries the transient fields along. -/
theorem expandLiteral_withTransient :
    expandLiteral (s.withTransient bc offset) = (expandLiteral s).map (·.withTransient bc offset) := by
  show (addCursor .outer s.outer 1 >>= _) = (addCursor .outer s.outer 1 >>= _).map _
  cases addCursor .outer s.outer 1 <;> rfl

/-- A back-reference read at `outer` carries the transient fields along. -/
theorem expandBackref_withTransient (len : BitVec 3) (start : BitVec 12) :
    expandBackref len start (s.withTransient bc offset) = (expandBackref len start s).map (·.withTransient bc offset) := by
  unfold expandBackref
  show (if s.outer.toNat < start.toNat + lengthOf len then _ else addCursor .outer s.outer 1 >>= _) = _
  split
  · rfl
  · cases addCursor .outer s.outer 1 with
    | error f => rfl
    | ok o => cases addCursor .segmentEnd (start.setWidth 16) (lengthOf len) <;> rfl

/-- A word read at `inner` sets the offset, so only `bc` is carried along (R124). -/
theorem playLiteral_withTransient (dly : BitVec 3) (off : BitVec 12) :
    playLiteral dly off (s.withTransient bc offset) = (playLiteral dly off s).map (·.setBc bc) := by
  show (addCursor .inner s.inner 1 >>= _) = (addCursor .inner s.inner 1 >>= _).map _
  cases addCursor .inner s.inner 1 <;> rfl

/-- FETCH.OUTER carries the transient fields along (R121). -/
theorem fetchOuter_withTransient :
    fetchOuter (s.withTransient bc offset) = andThen (fetchOuter s) fun t => .next (t.withTransient bc offset) := by
  by_cases he : s.inner = s.segmentEnd
  · have he' : (s.withTransient bc offset).inner = (s.withTransient bc offset).segmentEnd := he
    rw [fetchOuter, if_pos he', fetchOuter, if_pos he, runWord_atOuter he', runWord_atOuter he, ← settle_map,
      indexRead_congr (s := s) rfl]
    congr 1
    show (indexRead s s.outer >>= _) = _
    cases indexRead s s.outer with
    | error f => rfl
    | ok w =>
      simp only [except_bind_ok]
      split
      · exact expandBackref_withTransient s bc offset _ _
      · exact expandLiteral_withTransient s bc offset
  · have he' : (s.withTransient bc offset).inner ≠ (s.withTransient bc offset).segmentEnd := he
    rw [fetchOuter, if_neg he', fetchOuter, if_neg he, andThen_next]

/-- FETCH.INNER with a segment in flight sets the offset and carries `bc` along (R124). -/
theorem fetchInner_withTransient {s : State} (hne : s.inner ≠ s.segmentEnd) :
    fetchInner (s.withTransient bc offset) = andThen (fetchInner s) fun t => .next (t.setBc bc) := by
  have hne' : (s.withTransient bc offset).inner ≠ (s.withTransient bc offset).segmentEnd := hne
  rw [fetchInner, fetchInner, runWord_atInner hne', runWord_atInner hne, ← settle_map, indexRead_congr (s := s) rfl]
  congr 1
  show (indexRead s s.inner >>= _) = _
  cases indexRead s s.inner with
  | error f => rfl
  | ok w =>
    simp only [except_bind_ok]
    split
    · rfl
    · exact playLiteral_withTransient s bc offset _ _

/-- UNPACK sets `bc` before it reads it (R143). -/
theorem unpack_setBc : unpack (s.setBc bc) = unpack s := rfl

/-- Once FETCH.OUTER is past, a fetch tick reads neither transient field (R124, R143). -/
theorem playWord_withTransient {s : State} (hne : s.inner ≠ s.segmentEnd) :
    playWord (s.withTransient bc offset) = playWord s := by
  rw [playWord, playWord, fetchInner_withTransient bc offset hne]
  cases fetchInner s with
  | next t => simp only [andThen_next, unpack_setBc]
  | fault f => rfl
  | refused r => rfl

/-- A fetch tick ends the same whatever the transient fields hold at its start: FETCH.INNER sets the offset and UNPACK sets `bc`. -/
theorem tick_withTransient_of_fetch {s : State} (hd : s.delay = 0) : tick (s.withTransient bc offset) = tick s := by
  rw [tick_fetch (s := s.withTransient bc offset) hd, tick_fetch hd]
  show andThen (fetchOuter (s.clearEvents.withTransient bc offset)) playWord = _
  rw [fetchOuter_withTransient]
  cases hf : fetchOuter s.clearEvents with
  | next t => exact playWord_withTransient bc offset (fetchOuter_eq_next.mp hf).spec.1
  | fault f => rfl
  | refused r => rfl

/-- The end of a tick carries the transient fields along (R140). -/
theorem finishTick_withTransient : finishTick (s.withTransient bc offset) = (finishTick s).withTransient bc offset := by
  have hw : wrap (s.withTransient bc offset) = (wrap s).withTransient bc offset := by
    show (if s.outer = s.artifact.streamLength then _ else _) = State.withTransient (if _ then _ else _) bc offset
    split <;> rfl
  rw [finishTick, hw, finishTick]
  show (if (wrap s).delay = 0 then _ else _) = State.withTransient (if _ then _ else _) bc offset
  split <;> rfl

end Transient

/-- An outcome is like itself. -/
theorem sameOutcomeButTransient_refl (r : Result) : sameOutcomeButTransient r r := by
  cases r <;> rfl

/-- Settles O42: a fetch tick sets both fields before it reads them, an idle tick reads neither. -/
theorem transientCursorsAreNeverRead : Obligations.TransientCursorsAreNeverRead := by
  intro s bc offset hin
  rw [step_of_tick hin, step_of_tick (s := { s with bc := bc, offset := offset }) hin]
  show sameOutcomeButTransient (tick (s.popInput.withTransient bc offset)) (tick s.popInput)
  by_cases hd : s.popInput.delay = 0
  · rw [tick_withTransient_of_fetch bc offset hd]
    exact sameOutcomeButTransient_refl _
  · rw [tick_idle (s := s.popInput.withTransient bc offset) hd, tick_idle hd]
    show sameButTransient (finishTick (s.popInput.clearEvents.withTransient bc offset)) _
    rw [finishTick_withTransient]
    rfl

end Sys2Proof.Machine

/-! PROOFS. The memories: what no instruction and no step writes (R54), and what an access outside them or to the sink does (R53, R61). -/

namespace Sys2Proof.Machine

/-! ## What is never written -/

/-- An instruction leaves the artifact (R54). -/
theorem exec_artifact {i : Instr} {s t : State} (h : exec i s = .next t) : t.artifact = s.artifact := by
  rw [exec_frame h]

/-- Settles O25: the artifact as a whole is kept, so every read of a table and every constant is. -/
theorem noInstructionWritesTheTables : Obligations.NoInstructionWritesTheTables := by
  intro i s t h
  rw [exec_artifact h]
  exact ⟨fun _ => rfl, fun _ => rfl, rfl, rfl, rfl, rfl⟩

/-- A tick leaves the artifact, the synthesizer and the host's queue (R54, R106, R140). -/
theorem tick_frame {s t : State} (h : tick s = .next t) :
    t = { s with
      outer := t.outer, inner := t.inner, segmentEnd := t.segmentEnd, delay := t.delay, parity := t.parity, bc := t.bc,
      offset := t.offset, shadow := t.shadow, events := t.events } := by
  cases tick_effect h with
  | idle => rw [finishTick_frame]; rfl
  | fetch _ u hu => rw [finishTick_frame, hu.spec.2]; rfl

/-- Settles O43: a tick leaves the artifact and the synthesizer; each of the other inputs sets fields of its own. -/
theorem noStepWritesTheArtifact : Obligations.NoStepWritesTheArtifact := by
  intro s t h
  unfold step at h
  cases hin : s.nextInput with
  | tick =>
    rw [hin] at h
    rw [tick_frame h]
    exact ⟨rfl, rfl, fun _ => ⟨rfl, fun _ => rfl⟩⟩
  | synth cur =>
    rw [hin] at h
    cases h
    exact ⟨rfl, rfl, fun hno => absurd rfl (hno cur)⟩
  | reset =>
    rw [hin] at h
    cases h
    exact ⟨rfl, rfl, fun _ => ⟨rfl, fun _ => rfl⟩⟩
  | synthReset =>
    rw [hin] at h
    cases h
    exact ⟨rfl, rfl, fun _ => ⟨rfl, fun hno => absurd rfl hno⟩⟩

/-! ## INDEX outside the stream -/

/-- IndexRead stops at or past `stream_length`, whatever the table lists there (R52, R61). -/
theorem indexRead_of_le {s : State} {p : BitVec 16} (h : s.artifact.wordCount ≤ p.toNat) :
    indexRead s p = .error (.indexOutOfRange p) := if_neg (Nat.not_lt.mpr h)

/-- A fetch at or past `stream_length` stops at its read (R61, R201). -/
theorem runWord_of_le {s : State} {p : BitVec 16} (h : s.artifact.wordCount ≤ p.toNat) :
    runWord p s = .fault (.indexOutOfRange p) := by
  rw [runWord, indexRead_of_le h]

/-- Settles O16: both fetches run the word at their cursor. -/
theorem fetchOutsideTheStreamFaults : Obligations.FetchOutsideTheStreamFaults := fun _ =>
  ⟨fun he h => (if_pos he).trans (runWord_of_le h), runWord_of_le⟩

/-! ## The sink -/

/-- Settles O20: a register reads the value written to it, and the other seven as before. -/
theorem sinkWriteAddsOneEvent : Obligations.SinkWriteAddsOneEvent := fun s e =>
  ⟨rfl, RegState.get_set_self s.shadow e.target e.value, fun _ hf => RegState.get_set_other s.shadow e.value hf, rfl⟩

/-! ## FRAME outside the table -/

section OutsideFrame

variable {s : State} (h : s.artifact.frameTable.read s.bc.toNat = none)

include h

/-- NEXTNIBBLE stops where `bc` reads no byte (R146, R201). -/
theorem nextNibble_of_none : nextNibble s = .error (.frameOutOfRange s.bc) := by
  rw [nextNibble, frameRead_of_none h, except_bind_error]

/-- A tone write stops at its first nibble (R147, R201). -/
theorem writeTone_of_none (event : BitVec 10 → SinkEvent) : writeTone event s = .error (.frameOutOfRange s.bc) := by
  rw [writeTone, nextTone, nextNibble_of_none h, except_bind_error, except_bind_error]

/-- A noise or volume write stops at its nibble (R148, R149, R201). -/
theorem writeNibble_of_none (event : Nibble → SinkEvent) : writeNibble event s = .error (.frameOutOfRange s.bc) := by
  rw [writeNibble, nextNibble_of_none h, except_bind_error]

/-- Each field-write operation is a tone write or a nibble write, so it stops where `bc` reads no byte. -/
theorem exec_ofField_of_none (f : Field) : exec (.ofField f) s = .fault (.frameOutOfRange s.bc) := by
  cases f with
  | tone0 | tone1 | tone2 => exact congrArg settle (writeTone_of_none h _)
  | noise | volume0 | volume1 | volume2 | volume3 => exact congrArg settle (writeNibble_of_none h _)

end OutsideFrame

/-- The instruction that writes a field is the field's operation (R89). -/
theorem eq_ofField_of_field? {i : Instr} {f : Field} (h : i.field? = some f) : i = .ofField f := by
  cases i <;> cases h <;> rfl

/-- UNPACK stops at the header where the frame offset reads no byte (R143, R201). -/
theorem unpack_of_none {s : State} (h : s.artifact.frameTable.read s.offset.toNat = none) :
    unpack s = .fault (.frameOutOfRange (s.offset.setWidth 13)) := by
  have hwidth : (s.offset.setWidth 13).toNat = s.offset.toNat := BitVec.toNat_setWidth_of_le (by decide)
  have hread : frameRead (s.setBc (s.offset.setWidth 13)) (s.offset.setWidth 13) =
      .error (.frameOutOfRange (s.offset.setWidth 13)) := frameRead_of_none (by rw [hwidth]; exact h)
  rw [unpack, startFrame, State.setBc_bc, hread, except_bind_error]

/-- Settles O26: the fault of the first read goes through to the outcome. -/
theorem payloadOutsideTheTableFaults : Obligations.PayloadOutsideTheTableFaults :=
  ⟨fun _ f _ hi h => eq_ofField_of_field? hi ▸ exec_ofField_of_none h f, fun _ => unpack_of_none⟩

end Sys2Proof.Machine

/-! PROOFS. The encodings: words of INDEX and frame headers decode to what they encode and back (R71 to R92), the literal's meanings (R83, R124),
and the header of a synthesized frame (R80, R102). -/

namespace Sys2Proof.Machine

/-! ## Words of INDEX -/

/-- A literal's word decodes to LIT, spelled DLY where the frame offset is 0 (R71, R83; log entry 7). -/
@[simp] theorem decodeWord_literalWord (dly : BitVec 3) (off : BitVec 12) :
    decodeWord (literalWord dly off) = if off = 0 then .dly dly else .lit dly off := by
  simp [decodeWord]

/-- A back-reference's word decodes to BREF (R72). -/
@[simp] theorem decodeWord_backrefWord (len : BitVec 3) (start : BitVec 12) :
    decodeWord (backrefWord len start) = .bref len start := by
  simp [decodeWord]

/-- The value of a word is the sum of its fields' values, each at its place (R71, R72). -/
theorem wordOf_toNat (b : BitVec 1) (x : BitVec 3) (y : BitVec 12) :
    (wordOf b x y).toNat = b.toNat * 2 ^ 15 + x.toNat * 2 ^ 12 + y.toNat := by
  rw [wordOf, BitVec.toNat_append, BitVec.toNat_append, ← Nat.shiftLeft_add_eq_or_of_lt x.isLt,
    ← Nat.shiftLeft_add_eq_or_of_lt y.isLt, Nat.shiftLeft_eq, Nat.shiftLeft_eq]
  omega

/-- Settles O2: the value is the sum of the fields' values, and decoding reads the fields back. -/
theorem wordsHaveTheirFieldsValues : Obligations.WordsHaveTheirFieldsValues := by
  constructor
  · intro dly off
    refine ⟨_, rfl, ?_, decodeWord_literalWord dly off⟩
    rw [literalWord_eq, wordOf_toNat]
    simp
  · intro len start
    refine ⟨_, rfl, ?_, decodeWord_backrefWord len start⟩
    rw [backrefWord_eq, wordOf_toNat]
    simp

/-- Settles O3: by bit 15, and for a literal by whether its frame offset is 0; the word is the word of its fields. -/
theorem encodeOfDecodedWordIsTheWord : Obligations.EncodeOfDecodedWordIsTheWord := by
  intro w
  cases hf : flagOf w with
  | true =>
    rw [← backrefWord_fields hf, decodeWord_backrefWord]
    exact ⟨rfl, rfl⟩
  | false =>
    rw [← literalWord_fields hf, decodeWord_literalWord]
    split
    · next h0 => exact ⟨rfl, by rw [h0]; rfl⟩
    · next h0 => exact ⟨decide_eq_true h0, rfl⟩

/-! ## Frame headers -/

/-- Every header bit is the bit of some field (R76, D3). -/
theorem exists_field_of_bit (i : Fin 8) : ∃ f : Field, f.index = i := ⟨Field.all.get i, by revert i; decide⟩

theorem mem_fieldAll (f : Field) : f ∈ Field.all := by cases f <;> decide

/-- Headers that mark the same fields are the same byte. -/
theorem header_ext {a b : Byte} (h : ∀ f, headerHas a f = headerHas b f) : a = b := by
  apply BitVec.eq_of_getLsbD_eq
  intro i hi
  obtain ⟨f, hf⟩ := exists_field_of_bit ⟨i, hi⟩
  have := h f
  rwa [headerHas, headerHas, Config.hdrBit, hf] at this

/-- The header of the fields a header marks is that header (R76). -/
@[simp] theorem headerOf_headerFields (h : Byte) : headerOf (headerFields h) = h :=
  header_ext (headerHas_headerOf (headerHas h))

/-- The header of a selection of the fields marks exactly that selection (R76). -/
theorem headerFields_headerOf (p : Field → Bool) : headerFields (headerOf (Field.all.filter p)) = Field.all.filter p :=
  congrArg (Field.all.filter ·) (funext (headerHas_headerOf p))

/-- Only the header `0x00` marks no field (R82). -/
theorem headerFields_ne_nil {h : Byte} (h0 : h ≠ 0) : headerFields h ≠ [] := fun hnil =>
  h0 (by rw [← headerOf_headerFields h, hnil]; rfl)

/-- A header with a bit set decodes to the operations of the fields it marks (R89). -/
theorem decodeHeader_of_ne_zero {h : Byte} (h0 : h ≠ 0) : decodeHeader h = (headerFields h).map Instr.ofField := if_neg h0

@[simp] theorem field?_ofField (f : Field) : (Instr.ofField f).field? = some f := by cases f <;> rfl

theorem ofField_injective : Function.Injective Instr.ofField := fun f g h =>
  Option.some.inj (by rw [← field?_ofField f, h, field?_ofField])

theorem ofField_ne_zero (f : Field) : Instr.ofField f ≠ .zero := by cases f <;> decide

/-- The header of field writes is the header of their fields (R76, R89). -/
@[simp] theorem encodeHeader_map_ofField (fs : List Field) : encodeHeader (fs.map Instr.ofField) = headerOf fs := by
  have hid : Instr.field? ∘ Instr.ofField = some := funext field?_ofField
  rw [encodeHeader, List.filterMap_map, hid, List.filterMap_some]

/-- The well-formed lists of header operations: ZERO alone, and the operations of a selection of the fields that is not empty (R89, R144). -/
theorem headerOpsWellFormed_iff {ops : List Instr} : headerOpsWellFormed ops = true ↔
    ops = [.zero] ∨ ops ≠ [] ∧ ∃ p : Field → Bool, ops = (Field.all.filter p).map Instr.ofField := by
  have hsel : ops = (Field.all.map Instr.ofField).filter (ops.contains ·) ↔
      ∃ p : Field → Bool, ops = (Field.all.filter p).map Instr.ofField := by
    constructor
    · intro h
      exact ⟨fun f => ops.contains (.ofField f), h.trans List.filter_map⟩
    · rintro ⟨p, rfl⟩
      rw [List.filter_map]
      congr 2
      funext f
      simp [Function.comp, mem_fieldAll, ofField_injective.eq_iff]
  simp [headerOpsWellFormed, ← hsel]

/-- Settles O4: a header is `0x00`, or it decodes to the operations of the fields it marks. -/
theorem headerDecodesToItsSetBits : Obligations.HeaderDecodesToItsSetBits := by
  intro h
  by_cases h0 : h = 0
  · subst h0
    exact ⟨rfl, by decide, fun f => iff_of_false (fun hmem => ofField_ne_zero f (List.mem_singleton.mp hmem)) (by simp)⟩
  · rw [decodeHeader_of_ne_zero h0]
    refine ⟨by simp, headerOpsWellFormed_iff.mpr (.inr ⟨by simp [headerFields_ne_nil h0], headerHas h, rfl⟩), fun f => ?_⟩
    rw [List.mem_map_of_injective ofField_injective, headerFields, List.mem_filter]
    exact and_iff_right (mem_fieldAll f)

/-- Settles O5: the header of a selection of the fields marks that selection, and is not `0x00` unless the selection is empty. -/
theorem headerOperationsDecodeBack : Obligations.HeaderOperationsDecodeBack := by
  intro ops hwf
  obtain rfl | ⟨hne, p, rfl⟩ := headerOpsWellFormed_iff.mp hwf
  · rfl
  · have h0 : headerOf (Field.all.filter p) ≠ 0 := by
      intro h0
      apply hne
      rw [← headerFields_headerOf p, h0]
      rfl
    rw [encodeHeader_map_ofField, decodeHeader_of_ne_zero h0, headerFields_headerOf]

/-- Settles O6: each code is evaluated. -/
theorem sampleCodesDecode : Obligations.SampleCodesDecode := ⟨rfl, rfl, rfl, rfl, rfl, rfl, rfl, rfl, rfl⟩

/-! ## Instructions -/

/-- The encoding of a field write is the header that marks its field alone (R76). -/
theorem encode_ofField (f : Field) : encode (.ofField f) = .header (encodeHeader [.ofField f]) := by cases f <;> rfl

/-- Decoding the encoding of a field write gives it back (R76, R89). -/
theorem decode_encode_ofField (f : Field) : decode (encode (.ofField f)) = [.ofField f] := by
  rw [encode_ofField]
  exact headerOperationsDecodeBack _ (by cases f <;> decide)

/-- Settles O1: a field write is the only operation of its header; the words of INDEX by their fields. -/
theorem decodeOfEncodeIsTheInstruction : Obligations.DecodeOfEncodeIsTheInstruction := by
  intro i hwf
  cases hf : i.field? with
  | some f =>
    rw [eq_ofField_of_field? hf]
    exact decode_encode_ofField f
  | none =>
    match i, hwf, hf with
    | .lit dly off, hwf, _ =>
      have hoff : off ≠ 0 := of_decide_eq_true hwf
      exact congrArg ([·]) ((decodeWord_literalWord dly off).trans (if_neg hoff))
    | .bref len start, _, _ => exact congrArg ([·]) (decodeWord_backrefWord len start)
    | .zero, _, _ => rfl
    | .dly dly, _, _ => exact congrArg ([·]) (decodeWord_literalWord dly 0)

/-! ## The literal's two readings -/

/-- A cursor below its top can advance (R129). -/
theorem toNat_add_one_lt {x : BitVec 16} (h : x ≠ 0xFFFF) : x.toNat + 1 < 2 ^ 16 := by bv_omega

/-- A literal read at `outer` is the segment of its own position (R122). -/
theorem runLiteral_atOuter (dly : BitVec 3) (off : BitVec 12) {s : State} (he : s.inner = s.segmentEnd) (ho : s.outer ≠ 0xFFFF) :
    runLiteral dly off s = .ok (s.setCursors (s.outer + 1) (s.outer + 1 - 1) (s.outer + 1)) :=
  runLiteral_eq_ok.mpr (.inl ⟨he, toNat_add_one_lt ho, rfl⟩)

/-- A literal read at `inner` is played (R124). -/
theorem runLiteral_atInner (dly : BitVec 3) (off : BitVec 12) {s : State} (hne : s.inner ≠ s.segmentEnd) (hi : s.inner ≠ 0xFFFF) :
    runLiteral dly off s = .ok (s.setPlay (s.inner + 1) (delayOf dly) off) :=
  runLiteral_eq_ok.mpr (.inr ⟨hne, toNat_add_one_lt hi, rfl⟩)

/-- Settles O11: LIT runs as a literal at `inner`. -/
theorem litAtInnerSetsDelayAndOffset : Obligations.LitAtInnerSetsDelayAndOffset := fun dly off _ hne hi =>
  congrArg settle (runLiteral_atInner dly off hne hi)

/-- Settles O13: DLY runs as the literal with offset 0 in both readings. -/
theorem dlyIsALiteralWithOffsetZero : Obligations.DlyIsALiteralWithOffsetZero := fun dly _ =>
  ⟨fun he ho => congrArg settle (runLiteral_atOuter dly 0 he ho),
    fun hne hi => congrArg settle (runLiteral_atInner dly 0 hne hi), rfl⟩

/-! ## The header of a synthesized frame -/

/-- A frame has 1 to 8 bytes (R80). -/
theorem frameLen_bounds (h : Byte) : 1 ≤ frameLen h ∧ frameLen h ≤ 8 := by
  have := payloadNibbles_le h
  unfold frameLen
  omega

/-- Settles O30: the header marks the changed fields, and counts the payload's nibbles. -/
theorem synthFrameHasItsHeadersLength : Obligations.SynthFrameHasItsHeadersLength := fun prev cur =>
  ⟨synthHeader prev cur, packBytes (synthNibbles prev cur), rfl, headerHas_headerOf (changed prev cur),
    synthFrame_length prev cur, frameLen_bounds (synthHeader prev cur)⟩

end Sys2Proof.Machine

/-! PROOFS. The frame synthesizer: its frames in terms of the change they carry, and the frame unpacker as its inverse (R100 to R112). -/

namespace Sys2Proof.Machine

/-! ## The change between two register states -/

/-- No field changes from a register state to itself (R21, R107). -/
theorem RegState.diff_self (r : RegState) : r.diff r = [] := by
  have hnone : Field.all.filter (changed r r) = [] := List.filter_eq_nil_iff.mpr fun f _ => by simp [changed]
  rw [RegState.diff, hnone, List.map_nil]

/-- The targets of a change are its changed fields, in field order (R21, R101). -/
theorem RegState.diff_targets (prev cur : RegState) : (prev.diff cur).map SinkEvent.target = changedFields prev cur := by
  rw [RegState.diff, List.map_map]
  exact List.map_id _

/-- A change carries the old register state to the new one (R21). -/
theorem RegState.apply_diff (prev cur : RegState) : prev.apply (prev.diff cur) = cur := by
  refine RegState.ext_get fun f => ?_
  rw [RegState.diff, RegState.get_apply_map]
  split
  · rfl
  · next hf =>
    have hsame : ¬ changed prev cur f = true := fun hc => hf (List.mem_filter.mpr ⟨mem_fieldAll f, hc⟩)
    exact (by simpa [changed] using hsame : cur.get f = prev.get f).symm

/-! ## The frame of a change -/

/-- The frame that carries a list of events: the header of their targets, then their packed values (R100). -/
def frameOfEvents (es : List SinkEvent) : List Byte :=
  headerOf (es.map SinkEvent.target) :: packBytes (es.flatMap fun e => packField e.target e.value)

/-- SYNTH looks at its two register states through their change alone (R100, R112). -/
theorem synthFrame_eq_frameOfEvents (prev cur : RegState) : synthFrame prev cur = frameOfEvents (prev.diff cur) := by
  rw [frameOfEvents, RegState.diff_targets, RegState.diff, List.flatMap_map]
  rfl

/-- Settles O31: the frame is made from the change. -/
theorem equalDiffsGiveEqualFrames : Obligations.EqualDiffsGiveEqualFrames := fun p c p' c' h => by
  rw [synthFrame_eq_frameOfEvents p c, h, ← synthFrame_eq_frameOfEvents p' c']

/-- The frame of no change is the one byte `0x00` (R107). -/
theorem synthFrame_self (cur : RegState) : synthFrame cur cur = [0] := by
  rw [synthFrame_eq_frameOfEvents, RegState.diff_self]
  rfl

/-- A step serves the input at the head of the queue and takes it off. -/
theorem step_of_inputs_cons {s : State} {i : HostInput} {rest : List HostInput} (h : s.inputs = i :: rest) :
    step s = serve i { s with inputs := rest } := by
  rw [step, State.nextInput, State.popInput, h]
  rfl

/-- Settles O33: the step is SYNTH itself, which frames the change before it copies `cur`. -/
theorem synthStepUpdatesPrev : Obligations.SynthStepUpdatesPrev := fun _ cur _ h =>
  ⟨step_of_inputs_cons h, synthFrame_self cur⟩

/-! ## Nibbles in bytes -/

/-- Byte `j` of a packed payload holds nibble `2j + 1` above nibble `2j`, and the pad nibble above an odd last one (R105, D4). -/
theorem getElem?_packBytes {ns : List Nibble} {j : Nat} {lo : Nibble} (h : ns[2 * j]? = some lo) :
    (packBytes ns)[j]? = some (ns[2 * j + 1]?.getD Config.padNibble ++ lo) := by
  induction ns using packBytes.induct generalizing j with
  | case1 => cases h
  | case2 n =>
    cases j with
    | zero => cases h; rfl
    | succ j => cases h
  | case3 n0 n1 ns ih =>
    cases j with
    | zero => cases h; rfl
    | succ j => exact ih h

/-- The nibbles of a tone value are its base-16 digits, low first (R103). -/
theorem packTone_digits (v : BitVec 10) : ∃ n0 n1 n2 : Nibble, packTone v = [n0, n1, n2] ∧
    n0.toNat = v.toNat % 16 ∧ n1.toNat = v.toNat / 16 % 16 ∧ n2.toNat = v.toNat / 256 := by
  have hv := v.isLt
  refine ⟨_, _, _, rfl, ?_, ?_, ?_⟩
  · simp [BitVec.extractLsb'_toNat]
  · simp [BitVec.extractLsb'_toNat, Nat.shiftRight_eq_div_pow]
  · have htop : (0#2 ++ v.extractLsb' 8 2).toNat = v.toNat / 256 % 4 := by
      rw [BitVec.toNat_append, BitVec.extractLsb'_toNat, Nat.shiftRight_eq_div_pow]
      simp
    exact htop.trans (by omega)

/-- Settles O32: two nibbles to a byte, the length this gives, and a tone's three digits. -/
theorem payloadBytesHoldTwoNibbles : Obligations.PayloadBytesHoldTwoNibbles :=
  ⟨fun _ _ _ => getElem?_packBytes, packBytes_length, packTone_digits⟩

/-! ## Unpacking the frame of a change -/

/-- The payload SYNTH makes, read back under the header it makes, is the change (R111). -/
theorem unpackEvents_synth (prev cur : RegState) :
    unpackEvents (headerFields (synthHeader prev cur)) (synthNibbles prev cur) = prev.diff cur := by
  rw [headerFields_synthHeader]
  exact unpackEvents_pack cur (changedFields prev cur)

/-- A frame SYNTH returns has 1 to 8 bytes (R112). -/
theorem synthFrame_length_le (prev cur : RegState) : (synthFrame prev cur).length ≤ 8 :=
  (synthFrame_length prev cur).trans_le (frameLen_bounds _).2

/-- UNPACK on a frame SYNTH returned: the sink receives the change, and `bc` ends on the byte after the frame (R111, R143). -/
theorem unpack_synthFrame {prev cur : RegState} {s : State} (hp : s.parity = .low)
    (hframe : ∀ (k : Nat) (b : Byte), (synthFrame prev cur)[k]? = some b →
      s.artifact.frameTable.read (s.offset.toNat + k) = some b) :
    unpack s = .next { s with
      bc := BitVec.ofNat 13 (s.offset.toNat + (synthFrame prev cur).length)
      shadow := s.shadow.apply (prev.diff cur)
      events := s.events ++ prev.diff cur } := by
  have hheader : s.artifact.frameTable.read s.offset.toNat = some (synthHeader prev cur) := hframe 0 _ rfl
  have hpayload : NibblesAt s.artifact.frameTable (2 * (s.offset.toNat + 1)) (synthNibbles prev cur) :=
    nibblesAt_of_packBytes _ _ _ fun k b hk => by
      rw [Nat.add_assoc, Nat.add_comm 1 k]
      exact hframe (k + 1) b hk
  rw [unpack_eq hp hheader (synthNibbles_length prev cur) hpayload, unpackEvents_synth, synthFrame_length]

/-- Settles O29: UNPACK hands the sink the change, and the change carries `prev` to `cur`. -/
theorem unpackInvertsSynth : Obligations.UnpackInvertsSynth := by
  intro prev cur s hp hframe
  refine ⟨_, unpack_synthFrame hp hframe, rfl, ?bc, hp, ?shadow, RegState.apply_diff prev cur⟩
  case bc =>
    have hoffset := s.offset.isLt
    have hlength := synthFrame_length_le prev cur
    exact (BitVec.toNat_ofNat _ _).trans (Nat.mod_eq_of_lt (by omega))
  case shadow =>
    rintro rfl
    exact RegState.apply_diff s.shadow cur

end Sys2Proof.Machine

/-! PROOFS. The words of INDEX: LIT, BREF and DLY at their two cursors, the two fetches, WRAP (R121 to R129). -/

namespace Sys2Proof.Machine

/-! ## BREF and the literal where they stop -/

/-- The length of a run as a cursor's step (R75). -/
theorem ofNat_lengthOf (len : BitVec 3) : BitVec.ofNat 16 (lengthOf len) = len.setWidth 16 + 2 := by
  apply BitVec.eq_of_toNat_eq
  simp [lengthOf]

/-- A back-reference read at `outer` enters its run where the run ends at or before it (R123). -/
theorem runBackref_atOuter {len : BitVec 3} {start : BitVec 12} {s : State} (he : s.inner = s.segmentEnd) (ho : s.outer ≠ 0xFFFF)
    (hle : start.toNat + lengthOf len ≤ s.outer.toNat) :
    runBackref len start s =
      .ok (s.setCursors (s.outer + 1) (start.setWidth 16) (start.setWidth 16 + (len.setWidth 16 + 2))) := by
  rw [← ofNat_lengthOf]
  exact runBackref_eq_ok.mpr ⟨he, hle, toNat_add_one_lt ho, rfl⟩

/-- A back-reference read at `outer` stops where its run ends after it (R201, U6). -/
theorem runBackref_notBefore {len : BitVec 3} {start : BitVec 12} {s : State} (he : s.inner = s.segmentEnd)
    (hlt : s.outer.toNat < start.toNat + lengthOf len) :
    runBackref len start s = .error (.backrefNotBefore s.outer (backrefWord len start)) :=
  (if_pos he).trans (if_pos hlt)

/-- A back-reference read at `inner` stops (R125). -/
theorem runBackref_atInner (len : BitVec 3) (start : BitVec 12) {s : State} (hne : s.inner ≠ s.segmentEnd) :
    runBackref len start s = .error (.backrefAtInner s.inner (backrefWord len start)) :=
  if_neg hne

/-- A cursor at its top cannot advance (R129). -/
theorem addCursor_top (c : Cursor) {x : BitVec 16} (h : x = 0xFFFF) : addCursor c x 1 = .error (.cursorOverflow c) :=
  addCursor_error c (by rw [h]; decide)

/-- A literal read at `outer` stops where `outer` cannot advance (R129). -/
theorem runLiteral_outerTop (dly : BitVec 3) (off : BitVec 12) {s : State} (he : s.inner = s.segmentEnd) (ho : s.outer = 0xFFFF) :
    runLiteral dly off s = .error (.cursorOverflow .outer) := by
  rw [runLiteral, if_pos he, expandLiteral, addCursor_top .outer ho, except_bind_error]

/-- A literal read at `inner` stops where `inner` cannot advance (R129). -/
theorem runLiteral_innerTop (dly : BitVec 3) (off : BitVec 12) {s : State} (hne : s.inner ≠ s.segmentEnd) (hi : s.inner = 0xFFFF) :
    runLiteral dly off s = .error (.cursorOverflow .inner) := by
  rw [runLiteral, if_neg hne, playLiteral, addCursor_top .inner hi, except_bind_error]

/-- A back-reference read at `outer` stops where `outer` cannot advance: every run ends before the last position (R129). -/
theorem runBackref_outerTop (len : BitVec 3) (start : BitVec 12) {s : State} (he : s.inner = s.segmentEnd) (ho : s.outer = 0xFFFF) :
    runBackref len start s = .error (.cursorOverflow .outer) := by
  have hbefore : ¬ s.outer.toNat < start.toNat + lengthOf len := by
    have := start.isLt
    have := len.isLt
    have htop : (0xFFFF : BitVec 16).toNat = 65535 := rfl
    rw [ho, htop, lengthOf]
    omega
  rw [runBackref, if_pos he, expandBackref, if_neg hbefore, addCursor_top .outer ho, except_bind_error]

/-! ## The instructions -/

/-- Settles O10: LIT runs as a literal at `outer`. -/
theorem litAtOuterIsItsOwnSegment : Obligations.LitAtOuterIsItsOwnSegment := fun dly off _ he ho =>
  congrArg settle (runLiteral_atOuter dly off he ho)

/-- Settles O12: BREF runs as a back-reference at `outer`, before it or not. -/
theorem brefAtOuterEntersItsRun : Obligations.BrefAtOuterEntersItsRun := fun _ _ _ he ho =>
  ⟨fun hle => congrArg settle (runBackref_atOuter he ho hle), fun hlt => congrArg settle (runBackref_notBefore he hlt)⟩

/-- Settles O14: BREF runs as a back-reference at `inner`. -/
theorem backrefAtInnerFaults : Obligations.BackrefAtInnerFaults := fun len start _ hne =>
  congrArg settle (runBackref_atInner len start hne)

/-- Settles O15: in each reading the first thing a word does is to advance its cursor. -/
theorem cursorOverflowFaults : Obligations.CursorOverflowFaults := fun dly off _ =>
  ⟨fun he ho => ⟨congrArg settle (runLiteral_outerTop dly off he ho), congrArg settle (runLiteral_outerTop dly 0 he ho),
      congrArg settle (runBackref_outerTop dly off he ho)⟩,
    fun hne hi => ⟨congrArg settle (runLiteral_innerTop dly off hne hi), congrArg settle (runLiteral_innerTop dly 0 hne hi)⟩⟩

/-- A literal changes at most the cursors, the delay and the frame offset (R122, R124). -/
theorem runLiteral_frame {dly : BitVec 3} {off : BitVec 12} {s t : State} (h : runLiteral dly off s = .ok t) :
    t = { s with outer := t.outer, inner := t.inner, segmentEnd := t.segmentEnd, delay := t.delay, offset := t.offset } := by
  obtain ⟨-, -, rfl⟩ | ⟨-, -, rfl⟩ := runLiteral_eq_ok.mp h <;> rfl

/-- A back-reference changes at most the cursors (R123). -/
theorem runBackref_frame {len : BitVec 3} {start : BitVec 12} {s t : State} (h : runBackref len start s = .ok t) :
    t = s.setCursors t.outer t.inner t.segmentEnd := by
  obtain ⟨-, -, -, rfl⟩ := runBackref_eq_ok.mp h
  rfl

/-- Settles O24: LIT and DLY run as literals, BREF as a back-reference, ZERO does nothing. -/
theorem indexWordFrame : Obligations.IndexWordFrame := by
  intro i s t hf h
  match i, hf, h with
  | .lit _ _, _, h => exact runLiteral_frame (settle_eq_next.mp h)
  | .dly _, _, h => exact runLiteral_frame (settle_eq_next.mp h)
  | .bref _ _, _, h => rw [runBackref_frame (settle_eq_next.mp h)]; rfl
  | .zero, _, h => cases h; rfl

/-! ## The fetches -/

/-- A word that can be read stands below 65535, so its cursor can advance (R129). -/
theorem toNat_add_one_lt_of_indexRead {s : State} {p : BitVec 16} {w : IndexWord} (h : indexRead s p = .ok w) :
    p.toNat + 1 < 2 ^ 16 := by
  have hstream := (indexRead_eq_ok.mp h).1
  have := s.artifact.streamLength.isLt
  omega

/-- Settles O7: the word opens its segment by one of FETCH.OUTER's effects. -/
theorem fetchOuterExpandsTheWordAtOuter : Obligations.FetchOuterExpandsTheWordAtOuter := by
  intro s w he hr
  have hlt := toNat_add_one_lt_of_indexRead hr
  constructor
  · intro hf
    exact fetchOuter_eq_next.mpr (.literal w he hr hf hlt)
  · intro hf hle
    rw [← ofNat_lengthOf]
    exact fetchOuter_eq_next.mpr (.backref w he hr hf hlt hle)

/-- FETCH.INNER stops on a word with bit 15 set (R125). -/
theorem fetchInner_of_backref {s : State} {x : IndexWord} (hne : s.inner ≠ s.segmentEnd) (hr : indexRead s s.inner = .ok x)
    (hf : flagOf x = true) : fetchInner s = .fault (.backrefAtInner s.inner x) := by
  rw [fetchInner, runWord_atInner hne, hr, except_bind_ok, if_pos hf, backrefWord_fields hf, settle_error]

/-- Settles O8: FETCH.INNER stops at its read, on a back-reference, or plays the literal. -/
theorem fetchInnerExtractsDelayAndOffset : Obligations.FetchInnerExtractsDelayAndOffset := fun _ hne =>
  ⟨runWord_of_le, fun x hr => ⟨fetchInner_of_backref hne hr, fun hf => (fetchInner_eq_next hne).mpr ⟨x, hr, hf, rfl⟩⟩⟩

/-- Settles O9: each of FETCH.OUTER's effects leaves a segment in flight. -/
theorem fetchOuterLeavesASegmentInFlight : Obligations.FetchOuterLeavesASegmentInFlight := fun _ _ h =>
  (fetchOuter_eq_next.mp h).spec.1

/-! ## The end of the stream -/

/-- WRAP at the end of the stream (R127). -/
theorem wrap_at_end {s : State} (h : s.outer = s.artifact.streamLength) :
    wrap s = s.setCursors s.artifact.loopOuter s.artifact.loopInner s.artifact.loopSegmentEnd := if_pos h

/-- WRAP elsewhere (R127). -/
theorem wrap_elsewhere {s : State} (h : s.outer ≠ s.artifact.streamLength) : wrap s = s := if_neg h

/-- Settles O38: by whether `outer` is at the end of the stream. -/
theorem wrapCopiesTheLoopTriple : Obligations.WrapCopiesTheLoopTriple := fun _ => ⟨wrap_at_end, wrap_elsewhere⟩

/-- With no segment in flight FETCH.OUTER advances `outer` by one word (R121). -/
theorem OuterEffect.outer_of_eq {s u : State} (h : OuterEffect s u) (he : s.inner = s.segmentEnd) : u.outer = s.outer + 1 := by
  cases h with
  | skipped hne => exact absurd he hne
  | literal => rfl
  | backref => rfl

/-- Settles O40: FETCH.OUTER takes `outer` to the end of the stream, where WRAP of the same tick finds it. -/
theorem lastWordWrapsInItsFetchTick : Obligations.LastWordWrapsInItsFetchTick := by
  intro s t w hin hd he hlast hw ht
  rw [step_of_tick hin] at ht
  cases tick_effect ht with
  | idle hne => exact absurd hd hne
  | fetch _ u hu x hx hf _ _ es _ bc =>
    have hplayed : playedWord s.popInput = some w := playedWord_congr hw rfl rfl rfl rfl rfl
    rw [playedWord_of_outer (s := s.popInput) hd hu, (indexRead_eq_ok.mp hx).2] at hplayed
    obtain rfl : x = w := Option.some.inj hplayed
    have hart : u.artifact = s.artifact := by rw [hu.spec.2]; rfl
    have hend : u.outer = u.artifact.streamLength := by
      have hlt : s.outer.toNat + 1 < 2 ^ 16 := hlast ▸ s.artifact.streamLength.isLt
      rw [hu.outer_of_eq he, hart]
      exact BitVec.eq_of_toNat_eq ((toNat_succ hlt).trans hlast)
    rw [finishTick_outer, finishTick_inner, finishTick_segmentEnd, finishTick_delay_toNat, wrap_at_end (by exact hend), ← hart]
    exact ⟨rfl, rfl, rfl, congrArg (· - 1) (delayOf_toNat (hi3Of x))⟩

end Sys2Proof.Machine

/-! PROOFS. Whole passes: the first pass from boot, the loop from the loop triple, and the triple COMPRESS answers (R127 to R133, R180 to R183). -/

namespace Sys2Proof.Machine

/-! ## Runs -/

/-- A run goes on where a run before it ended. -/
theorem runFor_add_of {j : Nat} {s v : State} (hv : runFor j s = .next v) (k : Nat) : runFor (j + k) s = runFor k v := by
  rw [runFor_add, hv, andThen_next]

theorem playsExactly_nil (s : State) : playsExactly [] s := by
  constructor
  · intro k w hk
    cases hk
  · intro n hn
    exact absurd hn (Nat.not_lt_zero n)

/-- A word played in its first tick alone, and then the words after it, is what plays exactly all of them (R130, R141). -/
theorem playsExactly_cons {x : IndexWord} {ws : List IndexWord} {s v : State} (hx : playedWord s = some x)
    (hidle : ∀ j, 0 < j → j < ticksOf x → ∃ t, runFor j s = .next t ∧ playedWord t = none)
    (hv : runFor (ticksOf x) s = .next v) (hws : playsExactly ws v) : playsExactly (x :: ws) s := by
  obtain ⟨hplay, hnone⟩ := hws
  constructor
  · intro k w hk
    cases k with
    | zero => exact ⟨s, rfl, hx.trans hk⟩
    | succ k =>
      rw [List.take_succ_cons, totalTicks_cons, runFor_add_of hv]
      exact hplay k w hk
  · intro n hn hstart
    rw [totalTicks_cons] at hn
    by_cases hlt : n < ticksOf x
    · exact hidle n (Nat.pos_of_ne_zero (hstart 0 (Nat.succ_pos _))) hlt
    · obtain ⟨m, rfl⟩ := Nat.exists_eq_add_of_le (Nat.le_of_not_lt hlt)
      rw [runFor_add_of hv]
      refine hnone m (Nat.lt_of_add_lt_add_left hn) fun k hk hm => hstart (k + 1) (Nat.succ_lt_succ hk) ?_
      rw [List.take_succ_cons, totalTicks_cons, hm]

/-! ## What a pass does -/

/-- In every tick up to that of the last of the words `ws`, the tick completes, and WRAP finds the end of the stream exactly in that of the
last word (R127, R128). -/
def WrapsAtLast (a : Artifact) (ws : List IndexWord) (s : State) : Prop :=
  ∀ n, n ≤ totalTicks ws.dropLast → ∃ t u, runFor n s = .next t ∧ beforeWrap t = .next u ∧ step t = .next (finishTick u) ∧
    (u.outer = a.streamLength ↔ n = totalTicks ws.dropLast)

/-- A decoder that has words still to play plays exactly these, wraps in the tick of the last of them and comes to the loop point
(R127, R130, R133). -/
theorem Remaining.pass {a : Artifact} {ws : List IndexWord} {s : State} (hpl : a.Playable) (h7 : a.wf7 = true)
    (h : Remaining a ws s) (hd : s.delay = 0) :
    playsExactly ws s ∧ WrapsAtLast a ws s ∧ ∃ t, runFor (totalTicks ws) s = .next t ∧ atLoopPoint a t := by
  induction ws generalizing s with
  | nil =>
    obtain ⟨x, rest, hnil, -⟩ := h.word hpl h7 hd
    cases hnil
  | cons x rest ih =>
    obtain ⟨_, _, hws, hplayed, hticks, v, hv, hlast, hmore⟩ := h.word hpl h7 hd
    cases hws
    have hidle : ∀ j, 0 < j → j < ticksOf x → ∃ t, runFor j s = .next t ∧ playedWord t = none := by
      intro j hpos hj
      obtain ⟨t, _, ht, hnone, -⟩ := hticks j hj
      exact ⟨t, ht, hnone hpos⟩
    have hpos := (ticksOf_bounds x).1
    by_cases hrest : rest = []
    · subst hrest
      refine ⟨playsExactly_cons hplayed hidle hv (playsExactly_nil v), ?_, v, hv, hlast rfl⟩
      intro n hn
      obtain rfl : n = 0 := Nat.le_zero.mp hn
      obtain ⟨t, u, ht, -, hu, hs, -, hend⟩ := hticks 0 hpos
      exact ⟨t, u, ht, hu, hs, iff_of_true (hend rfl rfl) rfl⟩
    · obtain ⟨hrem, hv0⟩ := hmore hrest
      obtain ⟨hplays, hwraps, t, ht, hloop⟩ := ih hrem hv0
      refine ⟨playsExactly_cons hplayed hidle hv hplays, ?_, t, ?_, hloop⟩
      · intro n hn
        rw [List.dropLast_cons_of_ne_nil hrest, totalTicks_cons] at hn ⊢
        by_cases hlt : n < ticksOf x
        · obtain ⟨t, u, ht, -, hu, hs, hne, -⟩ := hticks n hlt
          exact ⟨t, u, ht, hu, hs, iff_of_false (hne hrest) (by omega)⟩
        · obtain ⟨m, rfl⟩ := Nat.exists_eq_add_of_le (Nat.le_of_not_lt hlt)
          rw [runFor_add_of hv, Nat.add_left_cancel_iff]
          exact hwraps m (Nat.le_of_add_le_add_left hn)
      · rw [totalTicks_cons, runFor_add_of hv]
        exact ht

/-! ## Where a pass begins -/

/-- After reset the whole expansion is still to play (R35, R130). -/
theorem remaining_boot {a : Artifact} (hpl : a.Playable) : Remaining a (expand a.words) (State.boot a) where
  artifact := rfl
  inputs := rfl
  parity := rfl
  outerLe := Nat.zero_le _
  last h := by
    have hempty : 0 = a.wordCount := h
    exact absurd hpl.nonempty (by omega)
  segmentEndLe := le_rfl
  innerLe := le_rfl
  words := rfl
  literals := rfl

/-- Settles O53: a pass from reset. -/
theorem firstPassPlaysTheExpansion : Obligations.FirstPassPlaysTheExpansion := fun _ _ hwf h7 =>
  (remaining_boot (Artifact.playable hwf)).pass (Artifact.playable hwf) h7 rfl

/-- A loop point at the end of the stream stands on its last word, which is a literal (WF6, WF7). -/
theorem Artifact.loopSegment_of_end {a : Artifact} (h6 : a.wf6 = true) (h7 : a.wf7 = true) (hend : a.loopOuter.toNat = a.wordCount) :
    a.loopSegmentEnd.toNat = a.loopInner.toNat + 1 := by
  simp only [Artifact.wf7, Bool.and_eq_true] at h7
  obtain ⟨w, hw, hf⟩ := Artifact.literalAt_eq_true.mp h7.2
  rw [← hend] at hw
  obtain ⟨-, hinner, hseg⟩ : 1 ≤ a.loopOuter.toNat ∧ a.loopInner.toNat + 1 = a.loopOuter.toNat ∧
      a.loopSegmentEnd = a.loopOuter := by
    simpa [Artifact.wf6, hw, hf] using h6
  rw [hseg, hinner]

/-- At the loop point the words the loop triple stands for are still to play (R133). -/
theorem remaining_atLoopPoint {a : Artifact} {s : State} (hpl : a.Playable) (h6 : a.wf6 = true) (h7 : a.wf7 = true)
    (h : atLoopPoint a s) : Remaining a a.loopWords s := by
  obtain ⟨rfl, hin, -, hp, ho, hi, hse⟩ := h
  exact {
    artifact := rfl
    inputs := hin
    parity := hp
    outerLe := by rw [ho]; exact hpl.loopOuterLe
    last := by rw [ho, hi, hse]; exact Artifact.loopSegment_of_end h6 h7
    segmentEndLe := by rw [ho, hse]; exact hpl.loopSegmentEndLe
    innerLe := by rw [hi, hse]; exact hpl.loopInnerLt.le
    words := by rw [ho, hi, hse]; rfl
    literals := by rw [hi, hse]; exact hpl.loopLiterals }

/-- A decoder at the loop point plays the words of its triple and comes back (R131, R133). -/
theorem loop_of_atLoopPoint {maxLen : Nat} {a : Artifact} {s : State} (hwf : a.wf maxLen = true) (h : atLoopPoint a s) :
    playsExactly a.loopWords s ∧ ∃ t, runFor (totalTicks a.loopWords) s = .next t ∧ atLoopPoint a t := by
  simp only [Artifact.wf, Bool.and_eq_true] at hwf
  obtain ⟨⟨hdef, h6⟩, h7⟩ := hwf
  have hpl := Artifact.playable hdef
  have ⟨_, _, hdelay, _⟩ := h
  obtain ⟨hplays, -, hback⟩ := (remaining_atLoopPoint hpl h6 h7 h).pass hpl h7 hdelay
  exact ⟨hplays, hback⟩

end Sys2Proof.Machine

/-! PROOFS. The compressor: what its output and its loop triple stand for (R130, R177 to R183). -/

namespace Sys2Proof.Machine

/-! ## MATCH -/

theorem runLength_le_cap (cap : Nat) (xs ys : List IndexWord) : runLength cap xs ys ≤ cap := by
  induction cap, xs, ys using runLength.induct <;> simp_all [runLength]

/-- Two streams agree in the run they share (R177). -/
theorem take_runLength (cap : Nat) (xs ys : List IndexWord) :
    xs.take (runLength cap xs ys) = ys.take (runLength cap xs ys) := by
  induction cap, xs, ys using runLength.induct <;> simp_all [runLength]

/-- A shared run lies in the first stream (R177). -/
theorem runLength_le_length (cap : Nat) (xs ys : List IndexWord) : runLength cap xs ys ≤ xs.length := by
  induction cap, xs, ys using runLength.induct <;> simp_all [runLength]

/-- What MATCH answers when it finds a run: a start below 4096 whose run with the remaining input it is (R177, R178, R184). -/
theorem matchRun_spec {out rest : List IndexWord} (h : 0 < (matchRun out rest).1) :
    (matchRun out rest).2 < 4096 ∧ runLength 9 (out.drop (matchRun out rest).2) rest = (matchRun out rest).1 := by
  obtain ⟨hlt, hrun, -⟩ := (scan_first_best (fun s => runLength 9 (out.drop s) rest) (min out.length 4096)).2 h
  exact ⟨lt_of_lt_of_le hlt (min_le_right ..), hrun⟩

/-! ## A stream that grows by one word -/

/-- A word's run, if it is a back-reference, lies in the stream before it (R123, R130). -/
def RunFits (out : List IndexWord) (w : IndexWord) : Prop :=
  flagOf w = true → (lo12Of w).toNat + lengthOf (hi3Of w) ≤ out.length

theorem RunFits.append {out : List IndexWord} {w : IndexWord} (h : RunFits out w) (more : List IndexWord) :
    RunFits (out ++ more) w := by
  intro hf
  have := h hf
  rw [List.length_append]
  omega

/-- The words a loop triple stands for in a stream (R133). -/
def tripleWords (c : List IndexWord) (t : LoopTriple) : List IndexWord :=
  (c.drop t.inner).take (t.segmentEnd - t.inner) ++ (c.drop t.outer).flatMap (expandWord c)

/-- The expansion of a stream is what the triple at its start stands for (R130). -/
theorem expand_eq_tripleWords (c : List IndexWord) : expand c = tripleWords c ⟨0, 0, 0⟩ := rfl

/-- A word added at the end adds the words it stands for. -/
theorem tripleWords_append {out : List IndexWord} {w : IndexWord} {t : LoopTriple} (hruns : ∀ x ∈ out, RunFits out x)
    (hw : RunFits out w) (hse : t.segmentEnd ≤ t.outer) (ho : t.outer ≤ out.length) :
    tripleWords (out ++ [w]) t = tripleWords out t ++ expandWord out w := by
  have hseg : ((out ++ [w]).drop t.inner).take (t.segmentEnd - t.inner) = (out.drop t.inner).take (t.segmentEnd - t.inner) := by
    rw [← List.drop_take, ← List.drop_take, List.take_append_of_le_length (hse.trans ho)]
  have hold : (out.drop t.outer).flatMap (expandWord (out ++ [w])) = (out.drop t.outer).flatMap (expandWord out) :=
    List.flatMap_congr fun x hx => expandWord_append (hruns x (List.mem_of_mem_drop hx)) [w]
  rw [tripleWords, hseg, List.drop_append_of_le_length ho, List.flatMap_append, hold, List.flatMap_singleton,
    expandWord_append hw, tripleWords, List.append_assoc]

/-- What the triple of a segment before a new last word stands for: the rest of the segment (R181, R182). -/
theorem tripleWords_last {c : List IndexWord} {inner segmentEnd : Nat} :
    tripleWords c ⟨c.length, inner, segmentEnd⟩ = (c.take segmentEnd).drop inner := by
  rw [tripleWords, List.drop_length, List.flatMap_nil, List.append_nil, ← List.drop_take]

/-! ## The invariant of COMPRESS -/

/-- The triple `t` in the stream `c` is in order and, before the words `rest`, stands for the words `ws` (R133, R181 to R183). -/
structure StandsFor (c : List IndexWord) (t : LoopTriple) (rest ws : List IndexWord) : Prop where
  inner : t.inner < t.segmentEnd
  segmentEnd : t.segmentEnd ≤ t.outer
  outer : t.outer ≤ c.length
  words : tripleWords c t ++ rest = ws

/-- Between two rounds of COMPRESS on `u`: the output and the remaining input make `u`, and the triple, once it is set, stands for `u` from the
loop offset on (R180, R183). -/
structure Compressing (u : List IndexWord) (loopOffset : Nat) (rest : List IndexWord) (i : Nat) (out : List IndexWord)
    (triple : Option LoopTriple) : Prop where
  input : u.drop i = rest
  runs : ∀ w ∈ out, RunFits out w
  expanded : expand out ++ rest = u
  triple : ∀ t, triple = some t → StandsFor out t rest (u.drop loopOffset)

/-- A round that appends one word for the next `n` words of the input keeps the invariant, if the triple it may set stands for the loop
offset. -/
theorem Compressing.append {u : List IndexWord} {loopOffset : Nat} {rest : List IndexWord} {i : Nat} {out : List IndexWord}
    {triple : Option LoopTriple} (h : Compressing u loopOffset rest i out triple) {w : IndexWord} {n : Nat} {new : Option LoopTriple}
    (hw : RunFits out w) (hexp : expandWord out w = rest.take n)
    (hnew : ∀ t, new = some t → StandsFor (out ++ [w]) t (rest.drop n) (u.drop loopOffset)) :
    Compressing u loopOffset (rest.drop n) (i + n) (out ++ [w]) (triple <|> new) where
  input := by rw [← h.input, List.drop_drop]
  runs := by
    intro x hx
    rcases List.mem_append.mp hx with hx | hx
    · exact (h.runs x hx).append [w]
    · rw [List.mem_singleton.mp hx]
      exact hw.append [w]
  expanded := by
    rw [expand_eq_tripleWords, tripleWords_append h.runs hw le_rfl (Nat.zero_le _), hexp, List.append_assoc,
      List.take_append_drop]
    exact h.expanded
  triple := by
    intro t ht
    cases triple with
    | none => exact hnew t ht
    | some t' =>
      obtain rfl : t' = t := Option.some.inj ht
      obtain ⟨hinner, hse, ho, hwords⟩ := h.triple t' rfl
      refine ⟨hinner, hse, ho.trans (by simp), ?_⟩
      rw [tripleWords_append h.runs hw hse ho, hexp, List.append_assoc, List.take_append_drop, hwords]

/-- A round without a match appends the next word as it is (R180, R181). -/
theorem Compressing.literal {u : List IndexWord} {loopOffset : Nat} {x : IndexWord} {rest : List IndexWord} {i : Nat}
    {out : List IndexWord} {triple : Option LoopTriple} (h : Compressing u loopOffset (x :: rest) i out triple)
    (hx : flagOf x = false) :
    Compressing u loopOffset rest (i + 1) (out ++ [x]) (triple <|> loopMapLiteral loopOffset out.length i) := by
  have hlen : (out ++ [x]).length = out.length + 1 := List.length_append
  refine h.append (n := 1) (fun hf => absurd hf (by simp [hx])) (by simp [expandWord, hx]) ?_
  intro t ht
  simp only [loopMapLiteral, Option.ite_none_right_eq_some, Option.some.injEq] at ht
  obtain ⟨rfl, rfl⟩ := ht
  refine ⟨Nat.lt_succ_self _, le_rfl, hlen.ge, ?_⟩
  rw [← hlen, tripleWords_last, List.take_length, List.drop_left, h.input]
  rfl

/-- A round with a match appends the back-reference to it (R180, R182). -/
theorem Compressing.backref {u : List IndexWord} {loopOffset : Nat} {rest : List IndexWord} {i : Nat}
    {out : List IndexWord} {triple : Option LoopTriple} (h : Compressing u loopOffset rest i out triple)
    (hm : 2 ≤ (matchRun out rest).1) :
    Compressing u loopOffset (rest.drop (matchRun out rest).1) (i + (matchRun out rest).1)
      (out ++ [backrefWord (BitVec.ofNat 3 ((matchRun out rest).1 - 2)) (BitVec.ofNat 12 (matchRun out rest).2)])
      (triple <|> loopMapBackref loopOffset out.length i (matchRun out rest).2 (matchRun out rest).1) := by
  obtain ⟨hstart, hrun⟩ := matchRun_spec (by omega : 0 < (matchRun out rest).1)
  generalize (matchRun out rest).1 = len at *
  generalize (matchRun out rest).2 = start at *
  have hcap : len ≤ 9 := hrun ▸ runLength_le_cap ..
  have hfit : start + len ≤ out.length := by
    have := runLength_le_length 9 (out.drop start) rest
    rw [hrun, List.length_drop] at this
    omega
  have hsame : (out.drop start).take len = rest.take len := hrun ▸ take_runLength 9 (out.drop start) rest
  have hlen := lengthOf_ofNat hm hcap
  have hlo : (BitVec.ofNat 12 start).toNat = start := Nat.mod_eq_of_lt hstart
  generalize hw : backrefWord (BitVec.ofNat 3 (len - 2)) (BitVec.ofNat 12 start) = w
  have hout : (out ++ [w]).length = out.length + 1 := List.length_append
  refine h.append (by simpa [RunFits, ← hw, hlen, hlo]) (by simpa [expandWord, ← hw, hlen, hlo]) ?_
  intro t ht
  simp only [loopMapBackref, Option.ite_none_right_eq_some, Option.some.injEq] at ht
  obtain ⟨⟨hge, hlt⟩, rfl⟩ := ht
  obtain ⟨k, rfl⟩ := Nat.exists_eq_add_of_le hge
  rw [Nat.add_sub_cancel_left]
  refine ⟨show start + k < start + len by omega, show start + len ≤ out.length + 1 by omega, hout.ge, ?_⟩
  have hk : k ≤ (rest.take len).length := by
    rw [← hsame, List.length_take, List.length_drop]
    omega
  rw [← hout, tripleWords_last, List.take_append_of_le_length hfit, ← List.drop_drop, List.drop_take, Nat.add_sub_cancel_left,
    hsame, ← List.drop_append_of_le_length hk, List.take_append_drop, ← h.input, List.drop_drop]

/-! ## The rounds of COMPRESS -/

theorem compressLoop_of_match {loopOffset fuel i : Nat} {x : IndexWord} {rest out : List IndexWord} {triple : Option LoopTriple}
    (h : 2 ≤ (matchRun out (x :: rest)).1) :
    compressLoop loopOffset (fuel + 1) (x :: rest) i out triple =
      compressLoop loopOffset fuel ((x :: rest).drop (matchRun out (x :: rest)).1) (i + (matchRun out (x :: rest)).1)
        (out ++ [backrefWord (BitVec.ofNat 3 ((matchRun out (x :: rest)).1 - 2)) (BitVec.ofNat 12 (matchRun out (x :: rest)).2)])
        (triple <|> loopMapBackref loopOffset out.length i (matchRun out (x :: rest)).2 (matchRun out (x :: rest)).1) := if_pos h

theorem compressLoop_of_literal {loopOffset fuel i : Nat} {x : IndexWord} {rest out : List IndexWord} {triple : Option LoopTriple}
    (h : ¬ 2 ≤ (matchRun out (x :: rest)).1) :
    compressLoop loopOffset (fuel + 1) (x :: rest) i out triple =
      compressLoop loopOffset fuel rest (i + 1) (out ++ [x]) (triple <|> loopMapLiteral loopOffset out.length i) := if_neg h

/-- With enough fuel the rounds use up the input and keep the invariant (R180). -/
theorem Compressing.loop {u : List IndexWord} (hu : ∀ w ∈ u, flagOf w = false) {loopOffset fuel i : Nat}
    {rest out : List IndexWord} {triple : Option LoopTriple} (h : Compressing u loopOffset rest i out triple) (hfuel : rest.length ≤ fuel) :
    ∃ j, Compressing u loopOffset [] j (compressLoop loopOffset fuel rest i out triple).1
      (compressLoop loopOffset fuel rest i out triple).2 := by
  induction fuel generalizing rest i out triple with
  | zero =>
    obtain rfl := List.length_eq_zero_iff.mp (Nat.le_zero.mp hfuel)
    exact ⟨i, h⟩
  | succ fuel ih =>
    cases rest with
    | nil => exact ⟨i, h⟩
    | cons x rest =>
      rw [List.length_cons] at hfuel
      by_cases hm : 2 ≤ (matchRun out (x :: rest)).1
      · rw [compressLoop_of_match hm]
        refine ih (h.backref hm) ?_
        rw [List.length_drop, List.length_cons]
        omega
      · have hx : x ∈ u := List.mem_of_mem_drop (i := i) (by rw [h.input]; exact List.mem_cons_self)
        rw [compressLoop_of_literal hm]
        exact ih (h.literal (hu x hx)) (Nat.le_of_succ_le_succ hfuel)

/-- Before the first round nothing is written and no triple is set (R180). -/
theorem compressing_start (u : List IndexWord) (loopOffset : Nat) : Compressing u loopOffset u 0 [] none where
  input := rfl
  runs _ hw := absurd hw List.not_mem_nil
  expanded := rfl
  triple _ ht := absurd ht nofun

/-- When COMPRESS answers, its rounds have used up the input and set the triple (R180, R184). -/
theorem compressing_of_compress {maxLen : Nat} {u c : List IndexWord} {loopOffset : Nat} {t : LoopTriple}
    (h : compress maxLen u loopOffset = .ok (c, t)) : ∃ j, Compressing u loopOffset [] j c (some t) := by
  unfold compress at h
  split at h
  · cases h
  · next hany =>
    have hu : ∀ w ∈ u, flagOf w = false := by simpa using hany
    have hloop := (compressing_start u loopOffset).loop hu le_rfl
    split at h
    · cases h
    · next out t' hout =>
      split at h
      · cases h
      · cases h
        rwa [hout] at hloop

/-- Settles O55: what the invariant of COMPRESS says of the triple when the input is used up, and a pass from the loop point. -/
theorem loopTripleStandsForTheLoopOffset : Obligations.LoopTripleStandsForTheLoopOffset := by
  refine ⟨?compress, fun _ _ _ => loop_of_atLoopPoint⟩
  case compress =>
    intro maxLen u c loopOffset t h
    obtain ⟨_, hc⟩ := compressing_of_compress h
    obtain ⟨hinner, hse, ho, hwords⟩ := hc.triple t rfl
    exact ⟨hinner, hse, ho, (List.append_nil _).symm.trans hwords⟩

end Sys2Proof.Machine

/-! PROOFS. The playback decoder: the nibble cursor and the field-write operations (R146 to R151), the frame unpacker (R143, R144), the tick and
the delay of a word (R140, R141, R152 to R157). -/

namespace Sys2Proof.Machine

/-! ## The nibble cursor -/

/-- The byte cursor below its top advances by one (R29). -/
theorem bc_succ_toNat {x : BitVec 13} (h : x.toNat + 1 < 8192) : (x + 1).toNat = x.toNat + 1 := by bv_omega

/-- Past the low nibble the cursor stays on its byte (R146). -/
theorem stepParity_low {s : State} (hp : s.parity = .low) : stepParity s = .ok { s with parity := .high } := by
  rw [stepParity, hp]
  rfl

/-- Past the high nibble the cursor goes to the next byte (R146). -/
theorem stepParity_high {s : State} (hp : s.parity = .high) (hlt : s.bc.toNat + 1 < 8192) :
    stepParity s = .ok { s with bc := s.bc + 1, parity := .low } := by
  rw [stepParity, hp]
  simp only [addCursor_ok .bc hlt, except_bind_ok]
  rfl

section OnAByte

variable {s : State} {b : Byte} (hb : s.artifact.frameTable.read s.bc.toNat = some b)

include hb

/-- NEXTNIBBLE at the low half of a byte (R146). -/
theorem nextNibble_low (hp : s.parity = .low) : nextNibble s = .ok (b.extractLsb' 0 4, { s with parity := .high }) :=
  nextNibble_eq_ok.mpr ⟨b, hb, by rw [hp]; rfl, stepParity_low hp⟩

/-- NEXTNIBBLE at the high half of a byte (R146). -/
theorem nextNibble_high (hp : s.parity = .high) (hlt : s.bc.toNat + 1 < 8192) :
    nextNibble s = .ok (b.extractLsb' 4 4, { s with bc := s.bc + 1, parity := .low }) :=
  nextNibble_eq_ok.mpr ⟨b, hb, by rw [hp]; rfl, stepParity_high hp hlt⟩

end OnAByte

/-- Settles O21: the two halves of a byte, and no byte. -/
theorem nextNibbleAlternates : Obligations.NextNibbleAlternates :=
  ⟨fun _ _ hb => ⟨nextNibble_low hb, nextNibble_high hb⟩, fun _ => nextNibble_of_none⟩

/-- ALIGN leaves a cursor on a whole byte where it is (R150). -/
theorem align_low {s : State} (hp : s.parity = .low) : align s = .ok s := by rw [align, hp]

/-- ALIGN in mid-byte is the step past the high nibble (R146, R150). -/
theorem align_high {s : State} (hp : s.parity = .high) : align s = stepParity s := by rw [align, stepParity, hp]

/-- Settles O22: by the parity. -/
theorem alignEndsOnAByte : Obligations.AlignEndsOnAByte := fun _ =>
  ⟨align_low, fun hp hlt => (align_high hp).trans (stepParity_high hp hlt)⟩

/-! ## The field-write operations -/

/-- Three nibbles, one after the other, make a tone value (R78, R147). -/
theorem nextTone_of_nibbles {s s1 s2 s3 : State} {n0 n1 n2 : Nibble} (h0 : nextNibble s = .ok (n0, s1))
    (h1 : nextNibble s1 = .ok (n1, s2)) (h2 : nextNibble s2 = .ok (n2, s3)) :
    nextTone s = .ok (toneValue n0 n1 n2, s3) := by
  simp only [nextTone, h0, h1, h2, except_bind_ok, except_pure]

/-- A tone value holds the low two bits of its third nibble alone (R78, D4). -/
theorem toneValue_extract (n0 n1 : Nibble) (b : Byte) (i : Nat) :
    toneValue n0 n1 (b.extractLsb' i 4) = b.extractLsb' i 2 ++ n1 ++ n0 := by
  have hlow : (b.extractLsb' i 4).extractLsb' 0 2 = b.extractLsb' i 2 := by
    ext j hj
    have hj4 : j < 4 := by omega
    simp [hj4]
  rw [toneValue, hlow]

section OnTwoBytes

variable {s : State} {b0 b1 : Byte} (h0 : s.artifact.frameTable.read s.bc.toNat = some b0)
  (h1 : s.artifact.frameTable.read (s.bc.toNat + 1) = some b1)

include h0 h1

/-- A tone value from the low half of a byte takes that byte and the low half of the next (R146, R147). -/
theorem nextTone_low (hp : s.parity = .low) (hlt : s.bc.toNat + 1 < 8192) :
    nextTone s = .ok (b1.extractLsb' 0 2 ++ b0.extractLsb' 4 4 ++ b0.extractLsb' 0 4,
      { s with bc := s.bc + 1, parity := .high }) := by
  have hnext : s.artifact.frameTable.read (s.bc + 1).toNat = some b1 := by rwa [bc_succ_toNat hlt]
  rw [← toneValue_extract]
  exact nextTone_of_nibbles (nextNibble_low h0 hp) (nextNibble_high (s := { s with parity := .high }) h0 rfl hlt)
    (nextNibble_low (s := { s with bc := s.bc + 1, parity := .low }) hnext rfl)

/-- A tone value from the high half of a byte takes that half and the whole of the next byte (R146, R147). -/
theorem nextTone_high (hp : s.parity = .high) (hlt : s.bc.toNat + 2 < 8192) :
    nextTone s = .ok (b1.extractLsb' 4 2 ++ b1.extractLsb' 0 4 ++ b0.extractLsb' 4 4,
      { s with bc := s.bc + 2, parity := .low }) := by
  have hsucc := bc_succ_toNat (x := s.bc) (by omega)
  have hnext : s.artifact.frameTable.read (s.bc + 1).toNat = some b1 := by rwa [hsucc]
  have htwo : s.bc + 2 = s.bc + 1 + 1 := (BitVec.add_assoc s.bc 1 1).symm
  rw [← toneValue_extract, htwo]
  exact nextTone_of_nibbles (nextNibble_high h0 hp (by omega))
    (nextNibble_low (s := { s with bc := s.bc + 1, parity := .low }) hnext rfl)
    (nextNibble_high (s := { s with bc := s.bc + 1, parity := .high }) hnext rfl (by rw [hsucc]; omega))

end OnTwoBytes

/-- An instruction that runs WR.TONE assembles its event from three nibbles (R147). -/
theorem writesTone_of_exec {i : Instr} {event : BitVec 10 → SinkEvent} (hi : ∀ s, exec i s = settle (writeTone event s)) :
    writesTone i event := by
  intro s b0 b1 h0 h1
  constructor
  · intro hp hlt
    rw [hi, writeTone, nextTone_low h0 h1 hp hlt]
    rfl
  · intro hp hlt
    rw [hi, writeTone, nextTone_high h0 h1 hp hlt]
    rfl

/-- Settles O17: each of the three runs WR.TONE. -/
theorem toneWritesAssembleThreeNibbles : Obligations.ToneWritesAssembleThreeNibbles :=
  ⟨writesTone_of_exec fun _ => rfl, writesTone_of_exec fun _ => rfl, writesTone_of_exec fun _ => rfl⟩

/-- An instruction that runs WR.NOISE or WR.VOL passes one nibble (R148, R149). -/
theorem writesNibble_of_exec {i : Instr} {event : Nibble → SinkEvent} (hi : ∀ s, exec i s = settle (writeNibble event s)) :
    writesNibble i event := by
  intro s b hb
  constructor
  · intro hp
    rw [hi, writeNibble, nextNibble_low hb hp]
    rfl
  · intro hp hlt
    rw [hi, writeNibble, nextNibble_high hb hp hlt]
    rfl

/-- Settles O18: each of the five runs a write of one nibble. -/
theorem nibbleWritesPassOneNibble : Obligations.NibbleWritesPassOneNibble :=
  ⟨writesNibble_of_exec fun _ => rfl, writesNibble_of_exec fun _ => rfl, writesNibble_of_exec fun _ => rfl,
    writesNibble_of_exec fun _ => rfl, writesNibble_of_exec fun _ => rfl⟩

/-- A field-write operation emits one event of its own field, and moves only the nibble cursor besides (R147 to R149). -/
theorem exec_ofField_frame {f : Field} {s t : State} (h : exec (.ofField f) s = .next t) :
    ∃ v : BitVec f.width, t = ({ s with bc := t.bc, parity := t.parity }).sinkWrite ⟨f, v⟩ := by
  cases f with
  | tone0 | tone1 | tone2 => exact writeTone_frame (settle_eq_next.mp h)
  | noise | volume0 | volume1 | volume2 | volume3 => exact writeNibble_frame (settle_eq_next.mp h)

/-- Settles O23: the instruction is the operation of its field. -/
theorem fieldWriteFrame : Obligations.FieldWriteFrame := fun _ _ _ _ hi h =>
  exec_ofField_frame (eq_ofField_of_field? hi ▸ h)

/-- Settles O19: ZERO's meaning is the state it is given. -/
theorem zeroFrameHasNoEffect : Obligations.ZeroFrameHasNoEffect := fun _ => rfl

/-! ## The frame unpacker -/

/-- UNPACK begins with the header at the frame offset and the cursor on the byte after it: a 12-bit offset leaves room for one more (R143). -/
theorem startFrame_of_read {s : State} {h : Byte} (hh : s.artifact.frameTable.read s.offset.toNat = some h) :
    startFrame s = .ok (h, { s with bc := s.offset.setWidth 13 + 1 }) := by
  have hwidth : (s.offset.setWidth 13).toNat = s.offset.toNat := BitVec.toNat_setWidth_of_le (by decide)
  have hread : frameRead (s.setBc (s.offset.setWidth 13)) (s.offset.setWidth 13) = .ok h :=
    frameRead_of_read (by rw [hwidth]; exact hh)
  have hroom : (s.offset.setWidth 13).toNat + 1 < 2 ^ 13 := by
    have := s.offset.isLt
    omega
  simp only [startFrame, State.setBc_bc, hread, addCursor_ok .bc hroom, except_bind_ok, except_pure]
  rfl

/-- Settles O36: UNPACK past its header, and the two equations of a run of operations. -/
theorem unpackRunsTheHeaderOperations : Obligations.UnpackRunsTheHeaderOperations :=
  ⟨fun _ _ hh => by rw [unpack, startFrame_of_read hh], fun _ _ _ => rfl, fun _ => rfl⟩

/-- The payload nibbles of a frame that lies in the table stand in FRAME (R55, R80). -/
theorem exists_payload {m : Memory 8} {o : Nat} {h : Byte} (hm : ∀ k, k < frameLen h → (m.read (o + k)).isSome = true) :
    ∃ ns : List Nibble, ns.length = payloadNibbles h ∧ NibblesAt m (2 * (o + 1)) ns := by
  refine exists_nibblesAt m _ _ fun i hi => ?_
  have hbyte : (2 * (o + 1) + i) / 2 = o + (1 + i / 2) := by omega
  rw [hbyte]
  exact hm _ (by unfold frameLen; omega)

/-- Settles O27: UNPACK on the payload nibbles the table holds. -/
theorem unpackConsumesExactlyTheFrame : Obligations.UnpackConsumesExactlyTheFrame := by
  intro s h hp hh hm
  obtain ⟨ns, hlen, hn⟩ := exists_payload hm
  have hoffset := s.offset.isLt
  have hframe := (frameLen_bounds h).2
  exact ⟨_, unpack_eq hp hh hlen hn, (BitVec.toNat_ofNat _ _).trans (Nat.mod_eq_of_lt (by omega)), rfl⟩

/-- Settles O28: what UNPACK emits, whatever it reads. -/
theorem unpackEmitsOneEventPerSetBit : Obligations.UnpackEmitsOneEventPerSetBit := by
  intro s t h hh ht
  obtain ⟨h', es, hh', hes, hframe⟩ := unpack_frame ht
  obtain rfl : h' = h := Option.some.inj (hh'.symm.trans hh)
  exact ⟨es, by rw [hframe], by rw [hframe], hes⟩

/-! ## The events of a tick -/

@[simp] theorem finishTick_events (s : State) : (finishTick s).events = s.events := by rw [finishTick_frame]
@[simp] theorem finishTick_shadow (s : State) : (finishTick s).shadow = s.shadow := by rw [finishTick_frame]
@[simp] theorem finishTick_inputs (s : State) : (finishTick s).inputs = s.inputs := by rw [finishTick_frame]

/-- The fields of a header are in strictly ascending order (R144). -/
theorem headerFields_ascending (h : Byte) : (headerFields h).Pairwise fun f g => f.index < g.index :=
  List.Pairwise.filter _ (by decide)

/-- Events whose targets are a header's fields are at most eight and in ascending order (R144, R154). -/
theorem ascendingTargets_of_headerFields {es : List SinkEvent} {h : Byte} (hes : es.map SinkEvent.target = headerFields h) :
    ascendingTargets es ∧ es.length ≤ 8 := by
  constructor
  · exact List.Pairwise.of_map SinkEvent.target (fun _ _ => id) (hes ▸ headerFields_ascending h)
  · rw [← List.length_map (f := SinkEvent.target), hes]
    exact List.length_filter_le (headerHas h) Field.all

/-- Settles O41: an idle tick emits nothing, a fetch tick the events of one header's fields. -/
theorem tickEventsAreOrdered : Obligations.TickEventsAreOrdered := by
  intro s t hin ht
  rw [step_of_tick hin] at ht
  cases tick_effect ht with
  | idle =>
    rw [finishTick_events, finishTick_shadow]
    exact ⟨List.Pairwise.nil, Nat.zero_le 8, rfl⟩
  | fetch _ _ _ _ _ _ _ _ es hes =>
    rw [finishTick_events, finishTick_shadow]
    obtain ⟨hasc, hlen⟩ := ascendingTargets_of_headerFields hes
    exact ⟨hasc, hlen, rfl⟩

/-! ## The parts of a tick -/

/-- Running the word at a position runs the instruction it decodes to (R89). -/
theorem runWord_of_read {s : State} {p : BitVec 16} {w : IndexWord} (h : indexRead s p = .ok w) :
    runWord p s = exec (decodeWord w) s := by
  rw [runWord, h]

/-- A step of a fetch tick is FETCH.OUTER's turn and then the rest (R140). -/
theorem step_fetch {s : State} (hin : s.nextInput = .tick) (hd : s.delay = 0) :
    step s = andThen (fetchOuter s.popInput.clearEvents) playWord := by
  rw [step_of_tick hin, tick_fetch (s := s.popInput) hd]

/-- A step of an idle tick is WRAP and DELAY.DEC (R141). -/
theorem step_idle {s : State} (hin : s.nextInput = .tick) (hd : s.delay ≠ 0) :
    step s = .next (finishTick s.popInput.clearEvents) := by
  rw [step_of_tick hin, tick_idle (s := s.popInput) hd]

/-- Settles O34: FETCH.OUTER takes its turn. -/
theorem stepRunsTheWordAtOuter : Obligations.StepRunsTheWordAtOuter := by
  intro s w hin hd he hr
  have hturn : fetchOuter s.popInput.clearEvents = exec (decodeWord w) s.popInput.clearEvents :=
    (if_pos he).trans (runWord_of_read hr)
  rw [step_fetch hin hd, hturn]
  rfl

/-- Settles O35: FETCH.OUTER is skipped, and FETCH.INNER runs its word. -/
theorem stepRunsTheWordAtInner : Obligations.StepRunsTheWordAtInner := by
  constructor
  · intro s w hin hd hne _
    have hskip : fetchOuter s.popInput.clearEvents = .next s.popInput.clearEvents := if_neg hne
    rw [step_fetch hin hd, hskip]
    rfl
  · intro t w hr
    rw [playWord, fetchInner, runWord_of_read hr]
    rfl

/-- DELAY.DEC counts a delay above 0 down (R153). -/
theorem delayDec_of_ne_zero {s : State} (h : s.delay ≠ 0) : delayDec s = s.setDelay (s.delay - 1) := if_neg h

/-- Settles O39: the delay's value, and DELAY.DEC's frame. -/
theorem delayDecSaturatesAtZero : Obligations.DelayDecSaturatesAtZero := fun s =>
  ⟨delayDec_toNat s, by rw [delayDec_frame]⟩

/-- Settles O37: WRAP by whether `outer` is at the end of the stream, then DELAY.DEC. -/
theorem idleTickOnlyWrapsAndCounts : Obligations.IdleTickOnlyWrapsAndCounts := by
  intro s hin hd
  have hleft : (wrap s.popInput.clearEvents).delay ≠ 0 := by rwa [wrap_delay]
  rw [step_idle hin hd, finishTick, delayDec_of_ne_zero hleft]
  split
  · next hend => rw [wrap_at_end (s := s.popInput.clearEvents) hend]; rfl
  · next hne => rw [wrap_elsewhere (s := s.popInput.clearEvents) hne]; rfl

/-! ## The delay of a word -/

/-- While a delay is left and the host delivers ticks, each step counts 1 off and emits nothing, WRAP or not (R141, R153). -/
theorem runFor_counts_delay {s : State} (hin : s.inputs = []) {n : Nat} (hn : n ≤ s.delay.toNat) :
    ∃ t, runFor n s = .next t ∧ t.inputs = [] ∧ t.delay.toNat + n = s.delay.toNat ∧ (0 < n → t.events = []) := by
  induction n with
  | zero => exact ⟨s, rfl, hin, rfl, fun h => absurd h (Nat.lt_irrefl 0)⟩
  | succ n ih =>
    obtain ⟨t, ht, htin, hdelay, -⟩ := ih (by omega)
    have hleft : t.delay ≠ 0 := by
      intro h0
      rw [h0, BitVec.ofNat_eq_ofNat, BitVec.toNat_zero] at hdelay
      omega
    have hstep := step_idle (by rw [State.nextInput, htin]; rfl) hleft
    refine ⟨finishTick t.popInput.clearEvents, ?_, by simp [htin], ?_, fun _ => by simp⟩
    · rw [runFor_add_of ht, runFor, hstep]
      rfl
    · rw [finishTick_delay_toNat, State.clearEvents_delay, State.popInput_delay]
      omega

/-- Settles O48: a running machine's delay is at most 7, and as many steps count it down. -/
theorem atMostSevenIdleTicks : Obligations.AtMostSevenIdleTicks := by
  intro maxLen s hrun hin
  obtain ⟨-, -, hseven, -⟩ := hrun
  obtain ⟨t, ht, -, hdelay, -⟩ := runFor_counts_delay hin le_rfl
  exact ⟨s.delay.toNat, t, hseven, ht, BitVec.eq_of_toNat_eq (Nat.add_eq_right.mp hdelay)⟩

/-- The tick that plays a word leaves the word's delay less the tick itself (R74, R124, R153). -/
theorem step_delay_of_playedWord {s t : State} {w : IndexWord} (hin : s.nextInput = .tick) (hw : playedWord s = some w)
    (ht : step s = .next t) : t.delay.toNat + 1 = ticksOf w := by
  obtain ⟨hd, -⟩ := playedWord_eq_some hw
  rw [step_of_tick hin] at ht
  cases tick_effect ht with
  | idle hne => exact absurd hd hne
  | fetch _ u hu x hx =>
    have hplayed : playedWord s.popInput = some w := playedWord_congr hw rfl rfl rfl rfl rfl
    rw [playedWord_of_outer (s := s.popInput) hd hu, (indexRead_eq_ok.mp hx).2] at hplayed
    obtain rfl : x = w := Option.some.inj hplayed
    rw [finishTick_delay_toNat, delayOf_toNat]
    rfl

/-- Settles O49: the fetch tick sets the delay, and the idle ticks after it count it down. -/
theorem aWordOccupiesItsDelay : Obligations.AWordOccupiesItsDelay := by
  intro s t w hin hw ht k hk
  have hticks := step_delay_of_playedWord (by rw [State.nextInput, hin]; rfl) hw ht
  obtain ⟨-, htin, -⟩ := noStepWritesTheArtifact s t ht
  rw [hin] at htin
  obtain ⟨u, hu, -, hdelay, hquiet⟩ := runFor_counts_delay htin (n := k) (by omega)
  exact ⟨u, hu, by omega, hquiet⟩

end Sys2Proof.Machine

/-! PROOFS. The artifact producer: MATCH and the losslessness of COMPRESS (R177 to R186), the delay chain (R175, R176), the frame dictionary
(R172 to R174), and the well-formedness of what BUILD makes (R185). -/

namespace Sys2Proof.Machine

/-! ## COMPRESS is lossless -/

/-- Settles O54: the invariant of COMPRESS when the input is used up. -/
theorem compressionIsLossless : Obligations.CompressionIsLossless := by
  intro _ _ _ _ _ h
  obtain ⟨_, hc⟩ := compressing_of_compress h
  exact (List.append_nil _).symm.trans hc.expanded

/-! ## MATCH and its runs -/

/-- Settles O56: MATCH is the scan for the first longest of the capped runs, over the starts below both limits. -/
theorem matchIsTheFirstLongestRun : Obligations.MatchIsTheFirstLongestRun := by
  intro out rest
  obtain ⟨hlongest, hfirst⟩ :
      (∀ s, s < min out.length 4096 → runLength 9 (out.drop s) rest ≤ (matchRun out rest).1) ∧
      (0 < (matchRun out rest).1 → (matchRun out rest).2 < min out.length 4096 ∧
        runLength 9 (out.drop (matchRun out rest).2) rest = (matchRun out rest).1 ∧
        ∀ s, s < (matchRun out rest).2 → runLength 9 (out.drop s) rest < (matchRun out rest).1) :=
    scan_first_best (fun s => runLength 9 (out.drop s) rest) (min out.length 4096)
  refine ⟨?cap, fun s hs hlow => hlongest s (lt_min hs hlow), fun hpos => ?first⟩
  case cap =>
    rcases Nat.eq_zero_or_pos (matchRun out rest).1 with hzero | hpos
    · rw [hzero]; exact Nat.zero_le 9
    · obtain ⟨-, hrun, -⟩ := hfirst hpos
      rw [← hrun]
      exact runLength_le_cap ..
  case first =>
    obtain ⟨hstart, hrun, hlower⟩ := hfirst hpos
    exact ⟨(lt_min_iff.mp hstart).1, (lt_min_iff.mp hstart).2, hrun, hlower⟩

/-- A run is the same whichever of the two streams is named first (R177). -/
theorem runLength_comm (cap : Nat) (xs ys : List IndexWord) : runLength cap xs ys = runLength cap ys xs := by
  induction cap, xs, ys using runLength.induct with
  | case1 xs ys => rfl
  | case2 cap ys => cases ys <;> rfl
  | case3 cap x xs => rfl
  | case4 cap x xs ys ih => rw [runLength, runLength, if_pos rfl, if_pos rfl, ih]
  | case5 cap x xs y ys hne => rw [runLength, runLength, if_neg hne, if_neg (Ne.symm hne)]

/-- A run below the cap ends where the next words differ, or where a stream does (R177). -/
theorem runLength_ends {cap : Nat} {xs ys : List IndexWord} (h : runLength cap xs ys < cap) {x y : IndexWord}
    (hx : xs[runLength cap xs ys]? = some x) (hy : ys[runLength cap xs ys]? = some y) : x ≠ y := by
  induction cap, xs, ys using runLength.induct with
  | case1 xs ys => exact absurd h (Nat.lt_irrefl 0)
  | case2 cap ys => cases hx
  | case3 cap x xs => cases hy
  | case4 cap x xs ys ih =>
    rw [runLength, if_pos rfl] at h hx hy
    exact ih (Nat.lt_of_succ_lt_succ h) hx hy
  | case5 cap a xs b ys hne =>
    rw [runLength, if_neg hne] at hx hy
    cases hx
    cases hy
    exact hne

/-- Settles O57: each part by the recursion of the run. -/
theorem runLengthIsTheCommonPrefix : Obligations.RunLengthIsTheCommonPrefix := fun cap xs ys =>
  ⟨runLength_le_cap cap xs ys, runLength_le_length cap xs ys, runLength_comm cap ys xs ▸ runLength_le_length cap ys xs,
    take_runLength cap xs ys, fun h _ _ => runLength_ends h⟩

/-! ## EMIT -/

/-- Settles O58: one word, or a word of 8 ticks and the rest of the chain for the ticks that remain. -/
theorem emitChainSumsToTheDelay : Obligations.EmitChainSumsToTheDelay := by
  intro off d hd
  have hliteral : ∀ x, flagOf x = false → x.getLsbD 15 = false ∧ 1 ≤ ticksOf x ∧ ticksOf x ≤ 8 :=
    fun x hf => ⟨hf, ticksOf_bounds x⟩
  by_cases hle : d ≤ 8
  · have hticks : ticksOf (literalWord (BitVec.ofNat 3 (d - 1)) off) = d := by
      rw [ticksOf_literalWord, BitVec.toNat_ofNat]
      omega
    refine ⟨literalWord (BitVec.ofNat 3 (d - 1)) off, [], ?_, hticks, lo12Of_literalWord .., nofun, ?_, nofun, ?_⟩
    · rw [emit, if_neg (by omega), if_pos hle]
    · exact List.forall_mem_singleton.mpr (hliteral _ (flagOf_literalWord ..))
    · rw [List.length_singleton]
      omega
  · obtain ⟨hsum, hpure, hcount, hne, hfull⟩ := emitTail_spec (d - 8) (d - 8) (by omega) le_rfl
    have hfirst : ticksOf (literalWord 7 off) = 8 := ticksOf_literalWord 7 off
    refine ⟨literalWord 7 off, emitTail (d - 8) (d - 8), ?_, ?_, lo12Of_literalWord .., fun x hx => (hpure x hx).1, ?_, ?_, ?_⟩
    · rw [emit, if_neg (by omega), if_neg hle]
    · rw [totalTicks_cons, hsum, hfirst]
      omega
    · exact List.forall_mem_cons.mpr ⟨hliteral _ (flagOf_literalWord ..), fun x hx => hliteral x (hpure x hx).2⟩
    · rw [List.dropLast_cons_of_ne_nil hne]
      exact List.forall_mem_cons.mpr ⟨hfirst, hfull⟩
    · rw [List.length_cons, hcount]
      omega

/-! ## The frame dictionary -/

/-- A sequence of producer operations answers exactly when both parts do (R203). -/
theorem build_bind_eq_ok {α β : Type} {x : Except BuildFailure α} {k : α → Except BuildFailure β} {b : β} :
    (x >>= k) = .ok b ↔ ∃ a, x = .ok a ∧ k a = .ok b := by
  cases x <;> simp [bind, Except.bind]

/-- A table or stream that has grown holds the values it held. -/
theorem getElem?_of_prefix {α : Type} {xs ys : List α} {p : Nat} {x : α} (h : xs <+: ys) (hx : xs[p]? = some x) : ys[p]? = some x := by
  obtain ⟨more, rfl⟩ := h
  obtain ⟨hp, -⟩ := List.getElem?_eq_some_iff.mp hx
  rw [List.getElem?_append_left hp, hx]

/-- A dictionary keeps its rules: its entries lie in the table, and the table in its limit (R172, R174). -/
structure Dictionary.Ok (d : Dictionary) : Prop where
  entries : d.entriesFit
  limit : d.frameTable.length ≤ 4096

/-- INTERN only adds: the table and what a scan finds stay, and the dictionary keeps its rules (R172, R174). -/
theorem intern_keeps {d d' : Dictionary} {bytes : List Byte} {o : Nat} (hd : d.Ok) (h : intern bytes d = .ok (o, d')) :
    d'.Ok ∧ d.frameTable <+: d'.frameTable ∧ ∀ {old e}, d.lookup old = some e → d'.lookup old = some e := by
  rcases intern_cases h with ⟨e, -, -, rfl⟩ | ⟨-, rfl, hlimit, rfl⟩
  · exact ⟨hd, List.prefix_rfl, id⟩
  · refine ⟨⟨fun e he => ?_, by rwa [List.length_append]⟩, List.prefix_append .., fun hold => ?_⟩
    · rw [List.length_append]
      rcases List.mem_append.mp he with he | he
      · exact (hd.entries e he).trans (Nat.le_add_right ..)
      · rw [List.mem_singleton.mp he]
    · rw [Dictionary.lookup_append hd.entries, hold, Option.some_or]

/-- The bytes INTERN has been given are an entry from then on, at the offset answered (R172). -/
theorem lookup_of_intern {d d' : Dictionary} {bytes : List Byte} {o : Nat} (hd : d.entriesFit) (h : intern bytes d = .ok (o, d')) :
    d'.lookup bytes = some (o, bytes.length) := by
  rcases intern_cases h with ⟨e, he, rfl, rfl⟩ | ⟨hnone, rfl, -, rfl⟩
  · rw [he, ← (Dictionary.lookup_some he).1]
  · rw [Dictionary.lookup_append hd, hnone, Option.none_or]
    simp [Dictionary.lookup, Dictionary.frameAt]

/-- An entry stays, whatever frames are interned after it (R172, R174). -/
theorem lookup_of_internAll {frames : List (List Byte)} {d d' : Dictionary} (hd : d.Ok) (h : internAll frames d = .ok d')
    {bytes : List Byte} {e : Nat × Nat} (he : d.lookup bytes = some e) : d'.lookup bytes = some e := by
  induction frames generalizing d with
  | nil => cases h; exact he
  | cons f fs ih =>
    obtain ⟨⟨o, d₁⟩, hf, hfs⟩ := build_bind_eq_ok.mp h
    obtain ⟨hd₁, -, hkeep⟩ := intern_keeps hd hf
    exact ih hd₁ hfs (hkeep he)

/-- Settles O59: the bytes are an entry at the offset answered, and no later INTERN takes an entry away. -/
theorem internGivesEqualFramesOneOffset : Obligations.InternGivesEqualFramesOneOffset := by
  intro d d' bytes o hfit hlimit h
  obtain ⟨⟨hfit', hlimit'⟩, hprefix, -⟩ := intern_keeps ⟨hfit, hlimit⟩ h
  have hentry := lookup_of_intern hfit h
  exact ⟨(Dictionary.lookup_some hentry).2, hprefix, hlimit', hfit',
    fun _ _ hall => intern_of_lookup (lookup_of_internAll ⟨hfit', hlimit'⟩ hall hentry)⟩

/-! ## The frames of BUILD -/

/-- The frame at an offset of a flat table has its header in the table and does not run past its end (WF3). -/
def FrameIn (table : List Byte) (o : Nat) : Prop := ∃ h, table[o]? = some h ∧ o + frameLen h ≤ table.length

theorem FrameIn.mono {table table' : List Byte} {o : Nat} (h : FrameIn table o) (hp : table <+: table') : FrameIn table' o := by
  obtain ⟨hdr, hh, hle⟩ := h
  exact ⟨hdr, getElem?_of_prefix hp hh, hle.trans hp.length_le⟩

/-- A frame of SYNTH that INTERN has stored or found lies in the table (R112, R172). -/
theorem frameIn_of_intern {d d' : Dictionary} {prev cur : RegState} {o : Nat} (hd : d.Ok)
    (h : intern (synthFrame prev cur) d = .ok (o, d')) : FrameIn d'.frameTable o := by
  obtain ⟨hstands, -⟩ := internGivesEqualFramesOneOffset d d' _ o hd.entries hd.limit h
  refine ⟨synthHeader prev cur, ?_, ?_⟩
  · have := congrArg (·[0]?) hstands
    simpa [synthFrame] using this
  · have := congrArg List.length hstands
    rw [List.length_take, List.length_drop, synthFrame_length] at this
    have := frameLen_bounds (synthHeader prev cur)
    omega

/-- What the loop of BUILD keeps: a dictionary that begins with the zero frame, and words that select frames of its table (R171, R173). -/
structure Built (d : Dictionary) (u : List IndexWord) : Prop where
  dict : d.Ok
  zeroFrame : d.frameTable[0]? = some 0
  frames : ∀ w ∈ u, FrameIn d.frameTable (lo12Of w).toNat

/-- The zero frame of the table, which a pure-delay word selects (R173, R176). -/
theorem Built.frameIn_zero {d : Dictionary} {u : List IndexWord} (h : Built d u) : FrameIn d.frameTable 0 := by
  obtain ⟨hpos, -⟩ := List.getElem?_eq_some_iff.mp h.zeroFrame
  exact ⟨0, h.zeroFrame, hpos⟩

/-- INIT's dictionary, before the first step (R173). -/
theorem built_start : Built dictInit [] := ⟨⟨by decide, by decide⟩, rfl, nofun⟩

/-- The words of EMIT select the frame given and the zero frame (R175, R176). -/
theorem lo12Of_of_emit {off : BitVec 12} {ticks : Nat} {words : List IndexWord} (h : emit off ticks = .ok words) :
    ∀ w ∈ words, lo12Of w = off ∨ lo12Of w = 0 := by
  have hticks : ticks ≠ 0 := by
    rintro rfl
    cases h
  obtain ⟨w, ws, hemit, -, hfirst, hpure, -⟩ := emitChainSumsToTheDelay off ticks (Nat.one_le_iff_ne_zero.mpr hticks)
  cases hemit.symm.trans h
  exact List.forall_mem_cons.mpr ⟨.inl hfirst, fun x hx => .inr (hpure x hx)⟩

/-- A step of BUILD keeps what its loop keeps (R171). -/
theorem Built.step {d d' : Dictionary} {u words : List IndexWord} {prev cur : RegState} {o ticks : Nat} (h : Built d u)
    (hi : intern (synthFrame prev cur) d = .ok (o, d')) (he : emit (BitVec.ofNat 12 o) ticks = .ok words) :
    Built d' (u ++ words) := by
  obtain ⟨hd', hprefix, -⟩ := intern_keeps h.dict hi
  have hframe := frameIn_of_intern h.dict hi
  have hlow : (BitVec.ofNat 12 o).toNat = o := by
    obtain ⟨hdr, -, hle⟩ := hframe
    have := (frameLen_bounds hdr).1
    have := hd'.limit
    exact Nat.mod_eq_of_lt (show o < 2 ^ 12 by omega)
  refine ⟨hd', getElem?_of_prefix hprefix h.zeroFrame, fun w hw => ?_⟩
  rcases List.mem_append.mp hw with hw | hw
  · exact (h.frames w hw).mono hprefix
  · rcases lo12Of_of_emit he w hw with hoff | hzero
    · rwa [hoff, hlow]
    · rw [hzero]
      exact h.frameIn_zero.mono hprefix

/-- The loop of BUILD keeps it (R171). -/
theorem built_of_buildSteps {bs : List BuildStep} {cur prev : RegState} {d d' : Dictionary} {u u' : List IndexWord} (h : Built d u)
    (hb : buildSteps bs cur prev d u = .ok (d', u')) : Built d' u' := by
  induction bs generalizing cur prev d u with
  | nil => cases hb; exact h
  | cons b bs ih =>
    obtain ⟨⟨o, d₁⟩, hi, hb⟩ := build_bind_eq_ok.mp hb
    obtain ⟨words, he, hb⟩ := build_bind_eq_ok.mp hb
    exact ih (h.step hi he) hb

/-! ## The form of a compressed stream -/

/-- If the word `w` at position `p` of a stream is a back-reference, its run ends at or before `p` and is all literals (WF4). -/
def RunOfLiterals (cs : List IndexWord) (p : Nat) (w : IndexWord) : Prop :=
  flagOf w = true → (lo12Of w).toNat + lengthOf (hi3Of w) ≤ p ∧
    ∀ q, (lo12Of w).toNat ≤ q → q < (lo12Of w).toNat + lengthOf (hi3Of w) → ∃ x, cs[q]? = some x ∧ flagOf x = false

theorem RunOfLiterals.mono {cs cs' : List IndexWord} {p : Nat} {w : IndexWord} (h : RunOfLiterals cs p w) (hp : cs <+: cs') :
    RunOfLiterals cs' p w := by
  intro hf
  obtain ⟨hle, hlit⟩ := h hf
  refine ⟨hle, fun q hlo hhi => ?_⟩
  obtain ⟨x, hx, hxf⟩ := hlit q hlo hhi
  exact ⟨x, getElem?_of_prefix hp hx, hxf⟩

/-- The loop triple LOOPMAP makes on the word `w` at position `p`: the word itself, or a rest of its run (R181, R182, WF6). -/
def LoopsOn (p : Nat) (w : IndexWord) (t : LoopTriple) : Prop :=
  t.outer = p + 1 ∧
    if flagOf w then
      (lo12Of w).toNat ≤ t.inner ∧ t.inner < (lo12Of w).toNat + lengthOf (hi3Of w) ∧
        t.segmentEnd = (lo12Of w).toNat + lengthOf (hi3Of w)
    else t.inner = p ∧ t.segmentEnd = p + 1

/-- What COMPRESS on `u` keeps of its output and its triple: literals come from `u`, back-references and the triple have the form WF4 and WF6
ask for (R180 to R183). -/
structure Encoded (u out : List IndexWord) (triple : Option LoopTriple) : Prop where
  literals : ∀ w ∈ out, flagOf w = false → w ∈ u
  runs : ∀ p w, out[p]? = some w → RunOfLiterals out p w
  triple : ∀ t, triple = some t → ∃ p w, out[p]? = some w ∧ LoopsOn p w t

theorem encoded_start (u : List IndexWord) : Encoded u [] none := ⟨nofun, nofun, nofun⟩

/-- A round appends one word, and keeps the form if the word and the triple it may set have it. -/
theorem Encoded.append {u out : List IndexWord} {triple new : Option LoopTriple} {w : IndexWord} (h : Encoded u out triple)
    (hw : flagOf w = false → w ∈ u) (hrun : RunOfLiterals out out.length w) (hnew : ∀ t, new = some t → LoopsOn out.length w t) :
    Encoded u (out ++ [w]) (triple <|> new) := by
  have hgrow : out <+: out ++ [w] := List.prefix_append ..
  refine ⟨fun x hx hf => ?literals, fun p x hx => ?runs, fun t ht => ?triple⟩
  case literals =>
    rcases List.mem_append.mp hx with hx | hx
    · exact h.literals x hx hf
    · obtain rfl := List.mem_singleton.mp hx
      exact hw hf
  case runs =>
    rcases Nat.lt_trichotomy p out.length with hp | rfl | hp
    · rw [List.getElem?_append_left hp] at hx
      exact (h.runs p x hx).mono hgrow
    · obtain rfl : w = x := Option.some.inj (List.getElem?_concat_length.symm.trans hx)
      exact hrun.mono hgrow
    · rw [List.getElem?_eq_none (by rw [List.length_append]; exact hp)] at hx
      cases hx
  case triple =>
    cases triple with
    | none => exact ⟨out.length, w, List.getElem?_concat_length, hnew t ht⟩
    | some t' =>
      obtain ⟨p, x, hx, hloop⟩ := h.triple t ht
      exact ⟨p, x, getElem?_of_prefix hgrow hx, hloop⟩

/-- A round without a match (R180, R181). -/
theorem Encoded.literal {u out : List IndexWord} {triple : Option LoopTriple} (h : Encoded u out triple) {x : IndexWord} (hx : x ∈ u)
    (hf : flagOf x = false) (loopOffset i : Nat) :
    Encoded u (out ++ [x]) (triple <|> loopMapLiteral loopOffset out.length i) := by
  refine h.append (fun _ => hx) (fun h => absurd h (by simp [hf])) fun t ht => ?_
  simp only [loopMapLiteral, Option.ite_none_right_eq_some, Option.some.injEq] at ht
  obtain ⟨-, rfl⟩ := ht
  simp [LoopsOn, hf]

/-- A round with a match: the run it refers to is a run of the input, whose words are literals (R177, R180, R182). -/
theorem Encoded.backref {u out rest : List IndexWord} {triple : Option LoopTriple} (h : Encoded u out triple)
    (hrest : ∀ w ∈ rest, flagOf w = false) (hm : 2 ≤ (matchRun out rest).1) (loopOffset i : Nat) :
    Encoded u (out ++ [backrefWord (BitVec.ofNat 3 ((matchRun out rest).1 - 2)) (BitVec.ofNat 12 (matchRun out rest).2)])
      (triple <|> loopMapBackref loopOffset out.length i (matchRun out rest).2 (matchRun out rest).1) := by
  obtain ⟨hstart, hrun⟩ := matchRun_spec (by omega : 0 < (matchRun out rest).1)
  generalize (matchRun out rest).1 = len at *
  generalize (matchRun out rest).2 = start at *
  have hlen := lengthOf_ofNat hm (hrun ▸ runLength_le_cap ..)
  have hlo : (BitVec.ofNat 12 start).toNat = start := Nat.mod_eq_of_lt hstart
  have hfit : len ≤ out.length - start := by
    rw [← List.length_drop, ← hrun]
    exact runLength_le_length ..
  have hsame : (out.drop start).take len = rest.take len := hrun ▸ take_runLength 9 (out.drop start) rest
  refine h.append (fun hf => absurd hf (by simp)) (fun _ => ?run) fun t ht => ?triple
  case run =>
    rw [lo12Of_backrefWord, hi3Of_backrefWord, hlo, hlen]
    refine ⟨by omega, fun q hge hlt => ?_⟩
    obtain ⟨k, rfl⟩ := Nat.exists_eq_add_of_le hge
    have hk : out[start + k]? = (rest.take len)[k]? := by
      rw [← hsame, List.getElem?_take_of_lt (by omega), List.getElem?_drop]
    have hx := List.getElem?_eq_getElem (show start + k < out.length by omega)
    exact ⟨_, hx, hrest _ (List.mem_of_mem_take (List.mem_of_getElem? (hk.symm.trans hx)))⟩
  case triple =>
    simp only [loopMapBackref, Option.ite_none_right_eq_some, Option.some.injEq] at ht
    obtain ⟨hin, rfl⟩ := ht
    simp only [LoopsOn, flagOf_backrefWord, lo12Of_backrefWord, hi3Of_backrefWord, hlo, hlen, if_true, true_and, and_true]
    omega

/-- The rounds of COMPRESS keep the form (R180). -/
theorem Encoded.loop {u : List IndexWord} (hu : ∀ w ∈ u, flagOf w = false) {loopOffset fuel i : Nat} {rest out : List IndexWord}
    {triple : Option LoopTriple} (h : Encoded u out triple) (hrest : rest ⊆ u) :
    Encoded u (compressLoop loopOffset fuel rest i out triple).1 (compressLoop loopOffset fuel rest i out triple).2 := by
  induction fuel generalizing rest i out triple with
  | zero => exact h
  | succ fuel ih =>
    cases rest with
    | nil => exact h
    | cons x rest =>
      by_cases hm : 2 ≤ (matchRun out (x :: rest)).1
      · rw [compressLoop_of_match hm]
        exact ih (h.backref (fun w hw => hu w (hrest hw)) hm _ _) fun w hw => hrest (List.mem_of_mem_drop hw)
      · obtain ⟨hx, hrest'⟩ := List.cons_subset.mp hrest
        rw [compressLoop_of_literal hm]
        exact ih (h.literal hx (hu x hx) _ _) hrest'

/-- What COMPRESS has checked when it answers: bit 15 of the input's words, the loop offset and the length (R184). -/
theorem compress_eq_ok {maxLen loopOffset : Nat} {u cs : List IndexWord} {t : LoopTriple} (h : compress maxLen u loopOffset = .ok (cs, t)) :
    (∀ w ∈ u, flagOf w = false) ∧ compressLoop loopOffset u.length u 0 [] none = (cs, some t) ∧ cs.length ≤ maxLen := by
  unfold compress at h
  split at h
  · cases h
  · next hany =>
    split at h
    · cases h
    · next out t' hout =>
      split at h
      · cases h
      · next hlen =>
        cases h
        exact ⟨by simpa using hany, hout, Nat.le_of_not_lt hlen⟩

/-- When COMPRESS answers, the stream and the triple have the form (R180 to R183). -/
theorem encoded_of_compress {maxLen loopOffset : Nat} {u cs : List IndexWord} {t : LoopTriple}
    (h : compress maxLen u loopOffset = .ok (cs, t)) : Encoded u cs (some t) := by
  obtain ⟨hu, hout, -⟩ := compress_eq_ok h
  have hloop := (encoded_start u).loop hu (loopOffset := loopOffset) (fuel := u.length) (i := 0) (List.Subset.refl u)
  rwa [hout] at hloop

/-! ## Flat tables as an artifact -/

/-- The artifact of a frame table, a stream and a loop triple (R86). -/
def artifactOf (frames : List Byte) (cs : List IndexWord) (t : LoopTriple) : Artifact :=
  Artifact.ofTables frames cs (BitVec.ofNat 16 t.outer) (BitVec.ofNat 16 t.inner) (BitVec.ofNat 16 t.segmentEnd)

section Flat

variable {frames : List Byte} {cs : List IndexWord} {t : LoopTriple}

theorem artifactOf_indexRead (p : Nat) : (artifactOf frames cs t).indexTable.read p = cs[p]? := Memory.read_ofList cs p

theorem artifactOf_wordCount (h : cs.length ≤ 32768) : (artifactOf frames cs t).wordCount = cs.length :=
  Nat.mod_eq_of_lt (show cs.length < 2 ^ 16 by omega)

theorem artifactOf_literalAt {p : Nat} : (artifactOf frames cs t).literalAt p = true ↔ ∃ w, cs[p]? = some w ∧ flagOf w = false := by
  rw [Artifact.literalAt_eq_true, artifactOf_indexRead]

theorem artifactOf_frameFits {o : Nat} (h : FrameIn frames o) : (artifactOf frames cs t).frameFits o = true := by
  obtain ⟨hdr, hh, hle⟩ := h
  have hread : (artifactOf frames cs t).frameTable.read o = some hdr := (Memory.read_ofList frames o).trans hh
  have hlength : (artifactOf frames cs t).frameTable.length = frames.length := Memory.ofList_length frames
  rw [Artifact.frameFits, hread, hlength]
  exact decide_eq_true hle

theorem artifactOf_wf1 {maxLen : Nat} (h0 : 1 ≤ cs.length) (hlen : cs.length ≤ maxLen) (hmax : maxLen ≤ 32768) :
    (artifactOf frames cs t).wf1 maxLen = true := by
  have hdense : (artifactOf frames cs t).indexTable.dense = true := Memory.ofList_dense cs
  have hlength : (artifactOf frames cs t).indexTable.length = cs.length := Memory.ofList_length cs
  simp only [Artifact.wf1, hdense, hlength, artifactOf_wordCount (hlen.trans hmax), decide_true, Bool.true_and, Bool.and_eq_true,
    decide_eq_true_eq]
  exact ⟨h0, hlen⟩

theorem artifactOf_wf2 (h0 : frames[0]? = some 0) (hlimit : frames.length ≤ 4096) : (artifactOf frames cs t).wf2 = true := by
  have hdense : (artifactOf frames cs t).frameTable.dense = true := Memory.ofList_dense frames
  have hlength : (artifactOf frames cs t).frameTable.length = frames.length := Memory.ofList_length frames
  have hread : (artifactOf frames cs t).frameTable.read 0 = some 0 := (Memory.read_ofList frames 0).trans h0
  obtain ⟨hpos, -⟩ := List.getElem?_eq_some_iff.mp h0
  simp only [Artifact.wf2, hdense, hlength, hread, decide_true, Bool.true_and, Bool.and_true, Bool.and_eq_true, decide_eq_true_eq]
  exact ⟨hpos, hlimit⟩

theorem artifactOf_wf3 (hc : cs.length ≤ 32768) (h : ∀ w ∈ cs, flagOf w = false → FrameIn frames (lo12Of w).toNat) :
    (artifactOf frames cs t).wf3 = true := by
  simp only [Artifact.wf3, List.all_eq_true, List.mem_range, artifactOf_wordCount hc]
  intro p hp
  rw [Artifact.wf3At, artifactOf_indexRead, List.getElem?_eq_getElem hp]
  cases hf : flagOf cs[p] with
  | true => simp [hf]
  | false => simp [hf, artifactOf_frameFits (h _ (List.getElem_mem hp) hf)]

theorem artifactOf_literalsIn_run {p : Nat} {w : IndexWord} (h : RunOfLiterals cs p w) (hf : flagOf w = true) :
    (artifactOf frames cs t).literalsIn (lo12Of w).toNat ((lo12Of w).toNat + lengthOf (hi3Of w)) = true :=
  Artifact.literalsIn_eq_true.mpr fun q hlo hhi => artifactOf_literalAt.mpr ((h hf).2 q hlo hhi)

theorem artifactOf_wf4 (hc : cs.length ≤ 32768) (h : ∀ p w, cs[p]? = some w → RunOfLiterals cs p w) :
    (artifactOf frames cs t).wf4 = true := by
  simp only [Artifact.wf4, List.all_eq_true, List.mem_range, artifactOf_wordCount hc]
  intro p hp
  have hrun := h p _ (List.getElem?_eq_getElem hp)
  rw [Artifact.wf4At, artifactOf_indexRead, List.getElem?_eq_getElem hp]
  cases hf : flagOf cs[p] with
  | false => simp [hf]
  | true => simp [hf, (hrun hf).1, artifactOf_literalsIn_run hrun hf]

theorem artifactOf_loop_toNat (hc : cs.length ≤ 32768) (hi : t.inner < t.segmentEnd) (hs : t.segmentEnd ≤ t.outer)
    (ho : t.outer ≤ cs.length) :
    (artifactOf frames cs t).loopOuter.toNat = t.outer ∧ (artifactOf frames cs t).loopInner.toNat = t.inner ∧
      (artifactOf frames cs t).loopSegmentEnd.toNat = t.segmentEnd := by
  have hsmall : ∀ n ≤ t.outer, (BitVec.ofNat 16 n).toNat = n := fun n hn => Nat.mod_eq_of_lt (show n < 2 ^ 16 by omega)
  exact ⟨hsmall _ le_rfl, hsmall _ (hi.le.trans hs), hsmall _ hs⟩

theorem artifactOf_wf5 (hc : cs.length ≤ 32768) (hi : t.inner < t.segmentEnd) (hs : t.segmentEnd ≤ t.outer) (ho : t.outer ≤ cs.length)
    {p : Nat} {w : IndexWord} (hw : cs[p]? = some w) (hrun : RunOfLiterals cs p w) (hloop : LoopsOn p w t) :
    (artifactOf frames cs t).wf5 = true := by
  have hlit : (artifactOf frames cs t).literalsIn t.inner t.segmentEnd = true := by
    refine Artifact.literalsIn_eq_true.mpr fun q hlo hhi => artifactOf_literalAt.mpr ?_
    obtain ⟨-, hform⟩ := hloop
    split at hform
    · next hf =>
      obtain ⟨-, hlit⟩ := hrun hf
      obtain ⟨hge, -, hstop⟩ := hform
      exact hlit q (hge.trans hlo) (hstop ▸ hhi)
    · next hf =>
      obtain rfl : q = p := by omega
      exact ⟨w, hw, by simpa using hf⟩
  obtain ⟨eo, ei, es⟩ := artifactOf_loop_toNat (frames := frames) hc hi hs ho
  simp only [Artifact.wf5, eo, ei, es, hlit, artifactOf_wordCount hc, Bool.and_true, Bool.and_eq_true, decide_eq_true_eq]
  omega

theorem artifactOf_wf6 (hc : cs.length ≤ 32768) (hi : t.inner < t.segmentEnd) (hs : t.segmentEnd ≤ t.outer) (ho : t.outer ≤ cs.length)
    {p : Nat} {w : IndexWord} (hw : cs[p]? = some w) (hloop : LoopsOn p w t) : (artifactOf frames cs t).wf6 = true := by
  obtain ⟨eo, ei, es⟩ := artifactOf_loop_toNat (frames := frames) hc hi hs ho
  obtain ⟨houter, hform⟩ := hloop
  have hread : (artifactOf frames cs t).indexTable.read ((artifactOf frames cs t).loopOuter.toNat - 1) = some w := by
    rw [eo, houter, artifactOf_indexRead]
    exact hw
  rw [Artifact.wf6, hread]
  simp only [eo, ei, es, ← BitVec.toNat_inj]
  split at hform
  · next hf => simp [hf, hform, houter]
  · next hf => simp [hf, hform, houter]

end Flat

/-! ## BUILD -/

/-- Settles O60: the dictionary gives the frames of the words of `U`, COMPRESS keeps their form and makes the loop triple on one of them. -/
theorem builtArtifactsAreWellFormed : Obligations.BuiltArtifactsAreWellFormed := by
  intro maxLen steps loopOffset a hmax h
  obtain ⟨⟨d, u⟩, hsteps, h⟩ := build_bind_eq_ok.mp h
  obtain ⟨⟨cs, t⟩, hcompress, h⟩ := build_bind_eq_ok.mp h
  obtain rfl : artifactOf d.frameTable cs t = a := Except.ok.inj h
  have hbuilt := built_of_buildSteps built_start hsteps
  have hform := encoded_of_compress hcompress
  obtain ⟨-, -, hlen⟩ := compress_eq_ok hcompress
  obtain ⟨hi, hs, ho, -⟩ := loopTripleStandsForTheLoopOffset.1 maxLen u cs _ t hcompress
  obtain ⟨p, w, hw, hloop⟩ := hform.triple t rfl
  have hc : cs.length ≤ 32768 := hlen.trans hmax
  have h1 := artifactOf_wf1 (frames := d.frameTable) (t := t) (by omega) hlen hmax
  have h2 := artifactOf_wf2 (cs := cs) (t := t) hbuilt.zeroFrame hbuilt.dict.limit
  have h3 := artifactOf_wf3 (t := t) hc fun x hx hf => hbuilt.frames x (hform.literals x hx hf)
  have h4 := artifactOf_wf4 (frames := d.frameTable) (t := t) hc hform.runs
  have h5 := artifactOf_wf5 (frames := d.frameTable) hc hi hs ho hw (hform.runs p w hw) hloop
  refine ⟨?_, artifactOf_wf6 hc hi hs ho hw hloop⟩
  rw [Artifact.wfDefined, h1, h2, h3, h4, h5]
  rfl

end Sys2Proof.Machine

/-! PROOFS. Reset and the first tick after it (R35, R220 to R222). -/

namespace Sys2Proof.Machine

/-- Settles O51: the input at the head of the queue is served, and serving a reset sets the fields the statement names. -/
theorem resetInputsRestoreResetValues : Obligations.ResetInputsRestoreResetValues := fun _ _ =>
  ⟨step_of_inputs_cons, step_of_inputs_cons⟩

/-- A fetch tick that finds no segment in flight and a literal at `outer`, not the last word of the stream, plays that literal and leaves all
three cursors behind it (R122, R124, R141). -/
theorem tick_of_literal {s : State} {w : IndexWord} (hpl : s.artifact.Playable) (hd : s.delay = 0) (hp : s.parity = .low)
    (he : s.inner = s.segmentEnd) (hw : s.artifact.indexTable.read s.outer.toNat = some w) (hf : flagOf w = false)
    (hmore : s.outer.toNat + 1 < s.artifact.wordCount) :
    ∃ t, tick s = .next t ∧ t.outer = s.outer + 1 ∧ t.inner = s.outer + 1 ∧ t.segmentEnd = s.outer + 1 ∧
      t.delay.toNat = (hi3Of w).toNat := by
  have hlt : s.outer.toNat + 1 < 2 ^ 16 := hmore.trans s.artifact.streamLength.isLt
  have hback : s.outer + 1 - 1 = s.outer := BitVec.add_sub_cancel ..
  have hfetch : OuterEffect s.clearEvents (s.clearEvents.setCursors (s.outer + 1) (s.outer + 1 - 1) (s.outer + 1)) :=
    .literal w he (indexRead_of_word (s := s.clearEvents) hpl hw) hf hlt
  obtain ⟨u, -, hu, huo, hui, hus, hud, -, hua, -⟩ :=
    tick_of_playable hpl hd hp hfetch (x := w) (by rwa [State.setCursors_inner, hback]) hf
  rw [State.setCursors_outer] at huo
  rw [State.setCursors_inner, hback] at hui
  rw [State.setCursors_segmentEnd] at hus
  have hend : u.outer ≠ u.artifact.streamLength := by
    rw [huo, hua]
    intro h
    exact absurd ((toNat_succ hlt).symm.trans (congrArg BitVec.toNat h)) (Nat.ne_of_lt hmore)
  refine ⟨finishTick u, hu, ?_, ?_, ?_, ?_⟩
  · rw [finishTick_outer, wrap_elsewhere hend, huo]
  · rw [finishTick_inner, wrap_elsewhere hend, hui]
  · rw [finishTick_segmentEnd, wrap_elsewhere hend, hus]
  · rw [finishTick_delay_toNat, hud, delayOf_toNat, Nat.add_sub_cancel]

/-- Settles O52: boot leaves no segment in flight and `outer` at the first word, which is a literal by WF4. -/
theorem firstTickPlaysPositionZero : Obligations.FirstTickPlaysPositionZero := by
  intro maxLen a hwf hlen
  have hpl := Artifact.playable hwf
  obtain ⟨w, hw⟩ := hpl.word (p := 0) (by omega)
  have hf := hpl.first_literal hw
  exact ⟨w, (tick_of_literal (s := State.boot a) hpl rfl rfl rfl hw hf hlen).imp fun _ h => ⟨hw, hf, h⟩⟩

end Sys2Proof.Machine
